-- ==== Sys2Proof/Word.lean ====
section
/-! DEFINITION. The word types of the rip8 CORE: bytes, 16-bit words, 12-bit address immediates, register and key numbers. -/

namespace Sys2Proof

/-- 8 bits: a general register, a timer, a byte of memory (R5 `REG_W`, `TIMER_W`). -/
abbrev Byte := BitVec 8

/-- 16 bits: pc, I, a stack entry, an instruction word (R5 `ADDR_W`, `INSN_W`). -/
abbrev Word := BitVec 16

/-- 12 bits: the address immediate NNN (R81). -/
abbrev Addr12 := BitVec 12

/-- The number of a general register, V0..VF (R20). -/
abbrev Reg := Fin 16

/-- The index of a key, 0x0..0xF (R28). -/
abbrev Key := Fin 16

/-- VF, the register that doubles as the flags register (R21). -/
abbrev vF : Reg := 15

end Sys2Proof
end

