-- ==== Sys2Proof/Syntax.lean ====
section
/-! DEFINITION. The instructions: one constructor per row of spec/opcode_table.json (R85), with the fields its shape names (R81). -/

namespace Sys2Proof

/-- The 35 shapes of R85, in the table's order. -/
inductive Instr where
  /-- 0NNN, every 0x0 word but CLS and RET -/
  | sys (nnn : Addr12)
  /-- 00E0 -/
  | cls
  /-- 00EE -/
  | ret
  /-- 1NNN -/
  | jp (nnn : Addr12)
  /-- 2NNN -/
  | call (nnn : Addr12)
  /-- 3XNN -/
  | seImm (x : Reg) (nn : Byte)
  /-- 4XNN -/
  | sneImm (x : Reg) (nn : Byte)
  /-- 5XY0 -/
  | seReg (x y : Reg)
  /-- 6XNN -/
  | ldImm (x : Reg) (nn : Byte)
  /-- 7XNN -/
  | addImm (x : Reg) (nn : Byte)
  /-- 8XY0 -/
  | mov (x y : Reg)
  /-- 8XY1 -/
  | or (x y : Reg)
  /-- 8XY2 -/
  | and (x y : Reg)
  /-- 8XY3 -/
  | xor (x y : Reg)
  /-- 8XY4 -/
  | add (x y : Reg)
  /-- 8XY5 -/
  | sub (x y : Reg)
  /-- 8XY6 -/
  | shr (x y : Reg)
  /-- 8XY7 -/
  | subn (x y : Reg)
  /-- 8XYE -/
  | shl (x y : Reg)
  /-- 9XY0 -/
  | sneReg (x y : Reg)
  /-- ANNN -/
  | ldI (nnn : Addr12)
  /-- BNNN -/
  | jpV0 (nnn : Addr12)
  /-- CXNN -/
  | rnd (x : Reg) (nn : Byte)
  /-- DXYN; `n` is the row count 0..15 -/
  | drw (x y : Reg) (n : Fin 16)
  /-- EX9E -/
  | skp (x : Reg)
  /-- EXA1 -/
  | sknp (x : Reg)
  /-- FX07 -/
  | ldVxDt (x : Reg)
  /-- FX0A -/
  | ldVxK (x : Reg)
  /-- FX15 -/
  | ldDtVx (x : Reg)
  /-- FX18 -/
  | ldStVx (x : Reg)
  /-- FX1E -/
  | addIVx (x : Reg)
  /-- FX29 -/
  | ldFVx (x : Reg)
  /-- FX33 -/
  | ldBVx (x : Reg)
  /-- FX55 -/
  | ldMemVx (x : Reg)
  /-- FX65 -/
  | ldVxMem (x : Reg)
deriving DecidableEq, Repr

end Sys2Proof
end

