-- ==== Sys2Proof/WellFormed.lean ====
section
/-! DEFINITION. Which terms of the syntax are instructions. The field types bound every field, so one check is left: the words of SYS 0x0E0 and SYS 0x0EE are CLS and RET (R84, R90). -/

namespace Sys2Proof

/-- `i` is an instruction of the table: it is not a SYS whose word belongs to CLS or RET. -/
def Instr.wellFormed : Instr → Bool
  | .sys nnn => nnn ≠ 0x0E0 && nnn ≠ 0x0EE
  | .cls | .ret | .jp _ | .call _ | .seImm _ _ | .sneImm _ _ | .seReg _ _ | .ldImm _ _
  | .addImm _ _ | .mov _ _ | .or _ _ | .and _ _ | .xor _ _ | .add _ _ | .sub _ _ | .shr _ _
  | .subn _ _ | .shl _ _ | .sneReg _ _ | .ldI _ | .jpV0 _ | .rnd _ _ | .drw _ _ _ | .skp _
  | .sknp _ | .ldVxDt _ | .ldVxK _ | .ldDtVx _ | .ldStVx _ | .addIVx _ | .ldFVx _ | .ldBVx _
  | .ldMemVx _ | .ldVxMem _ => true

end Sys2Proof
end

