-- ==== Sys2Proof/Decode.lean ====
section
/-! DEFINITION. Decoding a 16-bit word (R80 to R87), the encoder after it, and the opcode table's numbering of a word's bits. -/

namespace Sys2Proof

/-- What a word decodes to: a shape with its fields, or `DecodeError(w)`, which names the word (R84). -/
inductive Decoded where
  | instr (i : Instr)
  | decodeError (w : Word)
deriving DecidableEq, Repr

/-- w[15:12], the major opcode (R81). -/
def opField (w : Word) : BitVec 4 := w.extractLsb' 12 4

/-- w[11:8], the register index X (R81). -/
def xField (w : Word) : Reg := (w.extractLsb' 8 4).toFin

/-- w[7:4], the register index Y (R81). -/
def yField (w : Word) : Reg := (w.extractLsb' 4 4).toFin

/-- w[3:0], a row count or a minor opcode (R81). -/
def nField (w : Word) : BitVec 4 := w.extractLsb' 0 4

/-- w[7:0], the byte immediate (R81). -/
def nnField (w : Word) : Byte := w.extractLsb' 0 8

/-- w[11:0], the address immediate (R81). -/
def nnnField (w : Word) : Addr12 := w.extractLsb' 0 12

/-- The 0x0 group: 00E0 and 00EE are tried before 0NNN (R84, R90). -/
def decode0 (w : Word) : Decoded :=
  if w = 0x00E0 then .instr .cls
  else if w = 0x00EE then .instr .ret
  else .instr (.sys (nnnField w))

/-- The 0x8 group, selected by the minor opcode N (R84). -/
def decode8 (w : Word) : Decoded :=
  match (nField w).toNat with
  | 0x0 => .instr (.mov (xField w) (yField w))
  | 0x1 => .instr (.or (xField w) (yField w))
  | 0x2 => .instr (.and (xField w) (yField w))
  | 0x3 => .instr (.xor (xField w) (yField w))
  | 0x4 => .instr (.add (xField w) (yField w))
  | 0x5 => .instr (.sub (xField w) (yField w))
  | 0x6 => .instr (.shr (xField w) (yField w))
  | 0x7 => .instr (.subn (xField w) (yField w))
  | 0xE => .instr (.shl (xField w) (yField w))
  | _ => .decodeError w

/-- The 0xE group, selected by NN (R84). -/
def decodeE (w : Word) : Decoded :=
  match (nnField w).toNat with
  | 0x9E => .instr (.skp (xField w))
  | 0xA1 => .instr (.sknp (xField w))
  | _ => .decodeError w

/-- The 0xF group, selected by NN (R84). -/
def decodeF (w : Word) : Decoded :=
  match (nnField w).toNat with
  | 0x07 => .instr (.ldVxDt (xField w))
  | 0x0A => .instr (.ldVxK (xField w))
  | 0x15 => .instr (.ldDtVx (xField w))
  | 0x18 => .instr (.ldStVx (xField w))
  | 0x1E => .instr (.addIVx (xField w))
  | 0x29 => .instr (.ldFVx (xField w))
  | 0x33 => .instr (.ldBVx (xField w))
  | 0x55 => .instr (.ldMemVx (xField w))
  | 0x65 => .instr (.ldVxMem (xField w))
  | _ => .decodeError w

/-- `decode(w)` of R84: total, a function of the word alone. -/
def decode (w : Word) : Decoded :=
  match (opField w).toNat with
  | 0x0 => decode0 w
  | 0x1 => .instr (.jp (nnnField w))
  | 0x2 => .instr (.call (nnnField w))
  | 0x3 => .instr (.seImm (xField w) (nnField w))
  | 0x4 => .instr (.sneImm (xField w) (nnField w))
  | 0x5 => if nField w = 0 then .instr (.seReg (xField w) (yField w)) else .decodeError w
  | 0x6 => .instr (.ldImm (xField w) (nnField w))
  | 0x7 => .instr (.addImm (xField w) (nnField w))
  | 0x8 => decode8 w
  | 0x9 => if nField w = 0 then .instr (.sneReg (xField w) (yField w)) else .decodeError w
  | 0xA => .instr (.ldI (nnnField w))
  | 0xB => .instr (.jpV0 (nnnField w))
  | 0xC => .instr (.rnd (xField w) (nnField w))
  | 0xD => .instr (.drw (xField w) (yField w) (nField w).toFin)
  | 0xE => decodeE w
  | _ => decodeF w

/-- The instruction word of two bytes: the byte at the lower address is the high byte (R55, R80). -/
def wordOfBytes (hi lo : Byte) : Word := hi ++ lo

/-- w[15:8], the byte stored at the lower address (R89). -/
def highByte (w : Word) : Byte := w.extractLsb' 8 8

/-- w[7:0], the byte stored at the higher address (R89). -/
def lowByte (w : Word) : Byte := w.extractLsb' 0 8

/-- Decoding a list of bytes: the first two make the word, the rest is handed back. Fewer than two
bytes hold no instruction word. -/
def decodeBytes : List Byte → Option (Decoded × List Byte)
  | hi :: lo :: rest => some (decode (wordOfBytes hi lo), rest)
  | [_] | [] => none

/-- Format F_NNN: op(4) NNN(12) (R83). -/
def formNNN (op : BitVec 4) (nnn : Addr12) : Word := op ++ nnn

/-- Format F_XNN, and F_X with NN fixed: op(4) X(4) NN(8) (R83). -/
def formXNN (op : BitVec 4) (x : Reg) (nn : Byte) : Word := op ++ BitVec.ofFin (w := 4) x ++ nn

/-- Format F_XYN, and F_XY with N fixed: op(4) X(4) Y(4) N(4) (R83). -/
def formXYN (op : BitVec 4) (x y : Reg) (n : BitVec 4) : Word :=
  op ++ BitVec.ofFin (w := 4) x ++ BitVec.ofFin (w := 4) y ++ n

/-- The word of an instruction, from the formats of R83 and the patterns of R84. -/
def encode : Instr → Word
  | .sys nnn => formNNN 0x0 nnn
  | .cls => 0x00E0
  | .ret => 0x00EE
  | .jp nnn => formNNN 0x1 nnn
  | .call nnn => formNNN 0x2 nnn
  | .seImm x nn => formXNN 0x3 x nn
  | .sneImm x nn => formXNN 0x4 x nn
  | .seReg x y => formXYN 0x5 x y 0x0
  | .ldImm x nn => formXNN 0x6 x nn
  | .addImm x nn => formXNN 0x7 x nn
  | .mov x y => formXYN 0x8 x y 0x0
  | .or x y => formXYN 0x8 x y 0x1
  | .and x y => formXYN 0x8 x y 0x2
  | .xor x y => formXYN 0x8 x y 0x3
  | .add x y => formXYN 0x8 x y 0x4
  | .sub x y => formXYN 0x8 x y 0x5
  | .shr x y => formXYN 0x8 x y 0x6
  | .subn x y => formXYN 0x8 x y 0x7
  | .shl x y => formXYN 0x8 x y 0xE
  | .sneReg x y => formXYN 0x9 x y 0x0
  | .ldI nnn => formNNN 0xA nnn
  | .jpV0 nnn => formNNN 0xB nnn
  | .rnd x nn => formXNN 0xC x nn
  | .drw x y n => formXYN 0xD x y (BitVec.ofFin (w := 4) n)
  | .skp x => formXNN 0xE x 0x9E
  | .sknp x => formXNN 0xE x 0xA1
  | .ldVxDt x => formXNN 0xF x 0x07
  | .ldVxK x => formXNN 0xF x 0x0A
  | .ldDtVx x => formXNN 0xF x 0x15
  | .ldStVx x => formXNN 0xF x 0x18
  | .addIVx x => formXNN 0xF x 0x1E
  | .ldFVx x => formXNN 0xF x 0x29
  | .ldBVx x => formXNN 0xF x 0x33
  | .ldMemVx x => formXNN 0xF x 0x55
  | .ldVxMem x => formXNN 0xF x 0x65

/-- The instruction word that the opcode table numbers `w` in `nbits` bits: every bit from `nbits`
up is 0, and an instruction is one word of 16 bits (R80, R90). -/
def tableWord (nbits w : Nat) : Word := BitVec.ofNat 16 (w % 2 ^ nbits)

/-- The instruction the decoder reads from the two bytes of a table word, laid out as memory holds
them (R89). -/
def decodeTableWord (nbits w : Nat) : Option Instr :=
  match decodeBytes [highByte (tableWord nbits w), lowByte (tableWord nbits w)] with
  | some (.instr i, _) => some i
  | some (.decodeError _, _) | none => none

end Sys2Proof
end

