-- ==== Sys2Proof/Config.lean ====
section
/-! DEFINITION. The fixed sizes of the hardware (R5), the type of its named parameters and the free random draw (R6). -/

namespace Sys2Proof.Config

/-- `MEM_SIZE`: addresses 0x000..0xFFF (R5). -/
abbrev memSize : Nat := 4096

/-- `FONT_BASE`: the font's first address (R5). -/
abbrev fontBase : Nat := 0x050

/-- The font's last address (R5, R51). -/
abbrev fontLast : Nat := 0x09F

/-- `PROGRAM_BASE`: the load address and the reset pc (R5). -/
abbrev programBase : Nat := 0x200

/-- `MAX_PROGRAM`: the most bytes `load` takes (R5). -/
abbrev maxProgram : Nat := 3584

/-- FX29's glyph index: all of V[X], or its low four bits (R6 `FONT_INDEX_MODE`, R152). -/
inductive FontIndexMode where
  | full
  | lowNibble
deriving DecidableEq, Repr

/-- The named parameters the spec hands to a model as arguments (R6), fixed for one machine:
`FONT_DATA`, `FONT_INDEX_MODE` and `STACK_USABLE`, the number of nested calls that succeed, at most
the 16 entries of the stack (R25). -/
structure Params where
  font : Vector Byte 80
  fontIndexMode : FontIndexMode
  stackUsable : Fin 17
deriving DecidableEq, Repr

/-- The oracle `RNG` (R6, R33, R121): the draw number `n`, any 8-bit value, under no law. It has no
body, so no proof can use a value of it. -/
opaque rngDraw : Nat → Byte

end Sys2Proof.Config
end

