-- ==== Sys2Proof/Machine/State.lean ====
section
/-! DEFINITION. The state of the machine (10_state.md), the causes a step can stop with, and the state after reset. -/

namespace Sys2Proof.Machine

/-- The closed set of fault causes (R201 to R207). A statement that raises one takes the fault entry of
R209 (`raise` in Machine/Ops.lean): a next state with the cause recorded in `State.fault`. As the outcome
of a step, a cause says that the machine had already recorded it and nothing changed (R132); stopping
there is what the spec says, hence safe (log entry 1). -/
inductive Fault where
  /-- code 1: a step's fetched word decodes to no shape (R201); raised by `cycle`; safe -/
  | decodeError (w : Word)
  /-- code 2: a 0NNN word was executed (R202); raised by SYS; safe, it errs toward unprovable (D4) -/
  | sysUnsupported (w : Word)
  /-- code 3: a call with every usable stack entry in use (R203); raised by CALL; safe -/
  | stackOverflow
  /-- code 4: a return with an empty stack (R204); raised by RET; safe -/
  | stackUnderflow
  /-- code 5: an access at an address ≥ 4096 (R205); raised by the fetch, DRW, LD B, LD [I], LD VX [I]; safe (D1) -/
  | memoryBounds (addr : Nat)
  /-- code 6: a program's write into the font (R206); raised by LD B and LD [I]; safe (D2) -/
  | fontWrite (addr : Nat)
  /-- code 7: a key index above 15 (R207); raised by SKP and SKNP; safe (D14) -/
  | keyIndex (k : Byte)
deriving DecidableEq, Repr

/-- Reasons to refuse an instruction. The model raises none: every instruction has its meaning. -/
inductive Refusal where
  /-- an instruction without a meaning, named as the opcode table names it; raised by no arm; safe -/
  | notModelled (mnemonic : String)
deriving DecidableEq, Repr

/-- The display grid, row by row: 32 rows of 64 cells, `true` when lit (R30). -/
abbrev Display := Vector (Vector Bool 64) 32

/-- Memory: the bytes that differ from their reset contents, by rising address (`Memory.wf`). -/
abbrev Memory := List Host.Cell

/-- The whole machine state (10_state.md R20 to R36), the fixed parameters of R6 and the model's own
count of random draws. -/
structure State where
  /-- V[0..15]; V[15] is VF (R20, R21) -/
  v : Vector Byte 16
  /-- I (R23) -/
  index : Word
  /-- the address of the next instruction to fetch (R22) -/
  pc : Word
  /-- the return addresses (R24) -/
  stack : Vector Word 16
  /-- the number of stack entries in use, 0..16 (R25) -/
  sp : Fin 17
  /-- DT, the delay timer (R26) -/
  dt : Byte
  /-- ST, the sound timer (R27) -/
  st : Byte
  /-- key[0..15] (R28) -/
  keys : Vector Bool 16
  /-- latched (key-wait) mode (R29) -/
  latched : Bool
  /-- latched_key, meaningful while `latched` (R29) -/
  latchedKey : Key
  /-- disp[y][x] (R30) -/
  disp : Display
  /-- mem[0..4095] (R31) -/
  mem : Memory
  /-- the fault record (R32) -/
  fault : Option Fault
  /-- FONT_DATA, FONT_INDEX_MODE, STACK_USABLE (R6): fixed, nothing writes them (log entry 3) -/
  params : Config.Params
  /-- the model's own: how many draws the oracle RNG has given (R33; log entry 2) -/
  draws : Nat
deriving DecidableEq, Repr

/-- A freshly constructed machine with the named parameters `p` (R36, R250, R251). -/
def State.construct (p : Config.Params) : State :=
  { v := Vector.replicate 16 0
    index := 0
    pc := BitVec.ofNat 16 Config.programBase
    stack := Vector.replicate 16 0
    sp := 0
    dt := 0
    st := 0
    keys := Vector.replicate 16 false
    latched := false
    latchedKey := 0
    disp := Vector.replicate 32 (Vector.replicate 64 false)
    mem := []
    fault := none
    params := p
    draws := 0 }

/-- The machine right after reset, with the default parameters (R36, R250, R251). The count of draws
starts at 0 (DESIGN CHOICE, log entry 2). -/
def State.reset : State := State.construct defaultParams

end Sys2Proof.Machine
end

