-- ==== Sys2Proof/Machine/Ops.lean ====
section
/-! DEFINITION. The named operations over registers, memory, the call stack and the display, the fetch, and taking a fault. -/

namespace Sys2Proof.Machine

/-! ### Registers -/

/-- `V[r]` (R10, R20). -/
def State.getV (s : State) (r : Reg) : Byte := s.v[r.val]

/-- `V[r] <- b` (R10, R20). -/
def State.setV (s : State) (r : Reg) (b : Byte) : State := { s with v := s.v.set r.val b }

/-- `I <- w` (R23). -/
def State.setIndex (s : State) (w : Word) : State := { s with index := w }

/-- `pc <- w` (R22). -/
def State.setPc (s : State) (w : Word) : State := { s with pc := w }

/-- `pc <- trunc_16(pc + 2)`: past an instruction word (R130, R142). -/
def State.advancePc (s : State) : State := s.setPc (s.pc + 2)

/-- `pc <- trunc_16(pc - 2)`: back to the instruction being executed (R182). -/
def State.rewindPc (s : State) : State := s.setPc (s.pc - 2)

/-- A skip: when `taken`, past one more word, whatever it holds (R142). -/
def State.skipIf (s : State) (taken : Bool) : State := if taken then s.advancePc else s

/-- `DT <- b` (R26). -/
def State.setDt (s : State) (b : Byte) : State := { s with dt := b }

/-- `ST <- b` (R27). -/
def State.setSt (s : State) (b : Byte) : State := { s with st := b }

/-- The display with the cells of `d` (R30). -/
def State.setDisp (s : State) (d : Display) : State := { s with disp := d }

/-- The memory `m` (R31). -/
def State.setMem (s : State) (m : Memory) : State := { s with mem := m }

/-- The next draw of the oracle RNG, a free value (R121; log entry 2). -/
def State.draw (s : State) : Byte := Config.rngDraw s.draws

/-- One draw taken: the next one is another free value (R121). -/
def State.countDraw (s : State) : State := { s with draws := s.draws + 1 }

/-! ### Faults (R209) -/

/-- The spec's numbering of the causes (R201 to R207). -/
def Fault.code : Fault → Nat
  | .decodeError _ => 1
  | .sysUnsupported _ => 2
  | .stackOverflow => 3
  | .stackUnderflow => 4
  | .memoryBounds _ => 5
  | .fontWrite _ => 6
  | .keyIndex _ => 7

/-- `fault <- Some(c)` (R209). -/
def State.recordFault (s : State) (c : Fault) : State := { s with fault := some c }

/-- `raise Fault(c)`: the step ends in the state reached so far with the cause recorded. No vector, no
saved register, no mode change, no rollback (R209, R210). There is no return from a fault (R212). -/
def raise (c : Fault) (s : State) : Host.Outcome State Fault Refusal := .next (s.recordFault c)

/-- How far a sequence of accesses came: to its end, or to the fault of one of them, with the state
written up to there (R209, R210). -/
inductive Progress where
  | done (s : State)
  | raised (c : Fault) (s : State)
deriving DecidableEq, Repr

/-- End an instruction: its last writes `k` where every access succeeded, else the fault entry, with
what came before it kept and nothing after it done (R209, R210). -/
def Progress.finish (k : State → State) : Progress → Host.Outcome State Fault Refusal
  | .done s => .next (k s)
  | .raised c s => raise c s

/-! ### Memory (20_memory.md) -/

/-- The font's addresses, 0x050..0x09F (R51). -/
def inFont (a : Nat) : Bool := Config.fontBase ≤ a && a ≤ Config.fontLast

/-- What an address reads as while nothing has written it, its reset contents: FONT_DATA in the font,
0 elsewhere (R31, R36, R250). -/
def resetByte (p : Config.Params) (a : Nat) : Byte :=
  if Config.fontBase ≤ a ∧ a ≤ Config.fontLast then p.font[a - Config.fontBase]?.getD 0 else 0

/-- The byte listed at `a`, if one is. -/
def Memory.lookup : Memory → Nat → Option Byte
  | [], _ => none
  | (b, w) :: rest, a => if a = b then some w else Memory.lookup rest a

/-- List `v` at `a`, keeping the addresses rising. -/
def Memory.insert : Memory → Nat → Byte → Memory
  | [], a, v => [(a, v)]
  | (b, w) :: rest, a, v =>
    if a < b then (a, v) :: (b, w) :: rest
    else if a = b then (a, v) :: rest
    else (b, w) :: Memory.insert rest a v

/-- List nothing at `a`. -/
def Memory.erase : Memory → Nat → Memory
  | [], _ => []
  | (b, w) :: rest, a => if a = b then Memory.erase rest a else (b, w) :: Memory.erase rest a

/-- mem[a], listed or as at reset. -/
def Memory.read (p : Config.Params) (m : Memory) (a : Nat) : Byte :=
  (m.lookup a).getD (resetByte p a)

/-- mem[a] <- v, in canonical form: the reset contents are not listed. -/
def Memory.write (p : Config.Params) (m : Memory) (a : Nat) (v : Byte) : Memory :=
  if v = resetByte p a then m.erase a else m.insert a v

/-- mem[a + j] <- b[j] for each byte of the list, in order (R252). -/
def Memory.writeAll (p : Config.Params) : Memory → Nat → List Byte → Memory
  | m, _, [] => m
  | m, a, b :: bs => Memory.writeAll p (m.write p a b) (a + 1) bs

/-- The canonical form: addresses inside memory and strictly rising, no entry equal to what its address
reads as unlisted. -/
abbrev Memory.wf (p : Config.Params) (m : Memory) : Prop :=
  m.Pairwise (fun c d => c.1 < d.1) ∧ ∀ c ∈ m, c.1 < Config.memSize ∧ c.2 ≠ resetByte p c.1

/-- mem[a] of the machine, for the addresses 0..4095; no address has a read side effect (R53). -/
def State.byteAt (s : State) (a : Nat) : Byte := s.mem.read s.params a

/-- `MemRead(a, 1)` (R53). -/
def memRead (s : State) (a : Nat) : Except Fault Byte :=
  if Config.memSize ≤ a then .error (.memoryBounds a) else .ok (s.byteAt a)

/-- `MemWrite(a, 1, v)` (R54): on a fault nothing is written. -/
def memWrite (s : State) (a : Nat) (v : Byte) : Except Fault State :=
  if Config.memSize ≤ a then .error (.memoryBounds a)
  else if inFont a then .error (.fontWrite a)
  else .ok (s.setMem (s.mem.write s.params a v))

/-- The memory address I + k, unbounded (R11, R63). -/
def State.indexAddr (s : State) (k : Nat) : Nat := s.index.toNat + k

/-- Write the bytes in order from address `a` up, until one write faults (R153, R154). -/
def storeBytes : List Byte → Nat → State → Progress
  | [], _, s => .done s
  | b :: bs, a, s =>
    match memWrite s a b with
    | .error c => .raised c s
    | .ok s' => storeBytes bs (a + 1) s'

/-- Load the registers in order from address `a` up, until one read faults (R155). -/
def loadRegs : List Reg → Nat → State → Progress
  | [], _, s => .done s
  | r :: rs, a, s =>
    match memRead s a with
    | .error c => .raised c s
    | .ok b => loadRegs rs (a + 1) (s.setV r b)

/-- `Fetch(pc)`: two reads, the lower address first, its byte the high one (R55). -/
def fetch (s : State) : Except Fault Word :=
  match memRead s s.pc.toNat with
  | .error c => .error c
  | .ok hi =>
    match memRead s (s.pc.toNat + 1) with
    | .error c => .error c
    | .ok lo => .ok (wordOfBytes hi lo)

/-! ### Call stack (R24, R25) -/

/-- Below STACK_USABLE there is a free entry, since at most all 16 are usable. -/
theorem stack_free {s : State} (h : ¬ s.params.stackUsable ≤ s.sp) : s.sp.val < 16 := by
  have := s.params.stackUsable.isLt
  rw [Fin.le_def] at h
  omega

/-- A stack in use has a top entry. -/
theorem stack_top {s : State} (h : ¬ s.sp = 0) : s.sp.val - 1 < 16 := by
  have : s.sp.val ≠ 0 := fun e => h (Fin.ext e)
  omega

/-- A call: push pc and go to `target`, or overflow when STACK_USABLE entries are in use (R136). -/
def State.call (s : State) (target : Word) : Host.Outcome State Fault Refusal :=
  if h : s.params.stackUsable ≤ s.sp then raise .stackOverflow s
  else
    .next { s with
      stack := s.stack.set s.sp.val s.pc (stack_free h)
      sp := ⟨s.sp.val + 1, Nat.succ_lt_succ (stack_free h)⟩
      pc := target }

/-- A return: pop the top entry into pc, or underflow when the stack is empty; the popped entry keeps
its value (R133). -/
def State.popPc (s : State) : Host.Outcome State Fault Refusal :=
  if h : s.sp = 0 then raise .stackUnderflow s
  else
    .next { s with
      sp := ⟨s.sp.val - 1, Nat.lt_of_le_of_lt (Nat.sub_le _ _) s.sp.isLt⟩
      pc := s.stack[s.sp.val - 1]'(stack_top h) }

/-! ### Keys (R28) -/

/-- Every key index in ascending order. -/
def allKeys : List Key := [0, 1, 2, 3, 4, 5, 6, 7, 8, 9, 10, 11, 12, 13, 14, 15]

/-- key[k] (R28). -/
def State.key (s : State) (k : Key) : Bool := s.keys[k.val]

/-- min { k | key[k] }, if any key is pressed (R182, R216). -/
def State.lowestKey (s : State) : Option Key := allKeys.find? s.key

/-! ### Display (R30, R161) -/

/-- Cell (x, y) of a display, unlit outside the grid. -/
def Display.cell (d : Display) (x y : Nat) : Bool := (d[y]?.bind (·[x]?)).getD false

/-- A display being drawn on, and whether a lit cell has gone unlit so far (R161 `hit`). -/
structure Canvas where
  disp : Display
  hit : Bool
deriving DecidableEq, Repr

/-- A 1-bit of the sprite at (x, y): the cell is inverted and a lit one is a hit; outside the grid it is
clipped (R161). -/
def drawPixel (c : Canvas) (x y : Nat) : Canvas :=
  if h : x < 64 ∧ y < 32 then
    { disp := c.disp.set y ((c.disp[y]'h.2).set x (!(c.disp[y]'h.2)[x]'h.1) h.1) h.2
      hit := c.hit || (c.disp[y]'h.2)[x]'h.1 }
  else c

/-- One row of the sprite: column `k` is bit 7 − k, the most significant bit leftmost (R161). -/
def drawRow (c : Canvas) (row : Byte) (ax y : Nat) : Canvas :=
  (List.range 8).foldl (fun c k => if row.getLsbD (7 - k) then drawPixel c (ax + k) y else c) c

/-- The rows `r`, `r + 1`, … of the sprite, `left` of them, each read from memory and drawn, until one
read faults (R161): what is drawn, and the fault. -/
def drawRows (s : State) (ax ay : Nat) : (left r : Nat) → Canvas → Canvas × Option Fault
  | 0, _, c => (c, none)
  | left + 1, r, c =>
    match memRead s (s.indexAddr r) with
    | .error e => (c, some e)
    | .ok row => drawRows s ax ay left (r + 1) (drawRow c row ax (ay + r))

end Sys2Proof.Machine
end

