-- ==== Sys2Proof/Machine/Cycle.lean ====
section
/-! DEFINITION. The fetch-decode-execute cycle (R130 to R132), over the effect `run` of an instruction, and the placing of a word where the next fetch reads. -/

namespace Sys2Proof.Machine

/-- Execute a fetched word: pc is advanced first, a word that decodes to no shape takes the fault
DecodeError, any other runs (R130, R201). -/
def runWord (run : Instr → State → Host.Outcome State Fault Refusal) (w : Word) (s : State) :
    Host.Outcome State Fault Refusal :=
  match decode w with
  | .decodeError w' => raise (.decodeError w') s.advancePc
  | .instr i => run i s.advancePc

/-- A cycle of a machine that may advance: fetch, then execute; a fetch fault leaves pc (R130). -/
def runningCycle (run : Instr → State → Host.Outcome State Fault Refusal) (s : State) :
    Host.Outcome State Fault Refusal :=
  match fetch s with
  | .error c => raise c s
  | .ok w => runWord run w s

/-- One `step()`. A recorded fault is checked first: the step answers it and changes nothing (R132).
In latched mode the step changes nothing (R131). -/
def cycle (run : Instr → State → Host.Outcome State Fault Refusal) (s : State) :
    Host.Outcome State Fault Refusal :=
  match s.fault with
  | some c => .fault c
  | none => if s.latched then .next s else runningCycle run s

/-- `s` with the word `w` stored at pc and pc + 1, high byte first (R55), whatever the region. -/
def State.placeWord (s : State) (w : Word) : State :=
  s.setMem (s.mem.writeAll s.params s.pc.toNat [highByte w, lowByte w])

end Sys2Proof.Machine
end

