-- ==== Sys2Proof/Machine/Flags.lean ====
section
/-! DEFINITION. The flag computations of the ALU and the order in which a result and its flag are written (R100 to R102). -/

namespace Sys2Proof.Machine

/-- A flag as VF holds it: 1 or 0. -/
def flagByte (b : Bool) : Byte := if b then 1 else 0

/-- The carry of an addition: a + b ≥ 256 (R116). -/
def carryOut (a b : Byte) : Bool := 256 ≤ a.toNat + b.toNat

/-- No borrow in a − b: minuend ≥ subtrahend (R117, R119). -/
def noBorrow (a b : Byte) : Bool := b.toNat ≤ a.toNat

/-- The bit a right shift drops, bit 0 (R118). -/
def lowBit (b : Byte) : Bool := b.getLsbD 0

/-- The bit a left shift drops, bit 7 (R120). -/
def highBit (b : Byte) : Bool := b.getLsbD 7

/-- V[X] <- the result, then VF <- the flag, so that the flag stays when X is 15 (R102). -/
def State.setResultFlag (s : State) (x : Reg) (result : Byte) (flag : Bool) : State :=
  (s.setV x result).setV vF (flagByte flag)

end Sys2Proof.Machine
end

