-- ==== Sys2Proof/Machine/Operands.lean ====
section
/-! DEFINITION. The operand forms: immediates, computed addresses, the glyph index, decimal digits, the register block and the key operand. -/

namespace Sys2Proof.Machine

/-- NNN as a 16-bit value: zero-extended (R82). -/
def addrOperand (nnn : Addr12) : Word := nnn.setWidth 16

/-- The word of 0NNN, which SysUnsupported records (R134, R202). -/
def sysWord (nnn : Addr12) : Word := nnn.setWidth 16

/-- BNNN's target: `trunc_16(zext_16(NNN) + V[0])` (R137). -/
def State.jumpV0Target (s : State) (nnn : Addr12) : Word :=
  addrOperand nnn + (s.getV 0).setWidth 16

/-- FX1E's sum: `trunc_16(I + V[X])` (R151). -/
def State.indexPlus (s : State) (b : Byte) : Word := s.index + b.setWidth 16

/-- The index after a block of registers 0..X: `trunc_16(I + X + 1)` (R154, R155). -/
def State.indexAfterBlock (s : State) (x : Reg) : Word :=
  s.index + BitVec.ofNat 16 (x.val + 1)

/-- The glyph index that FX29 takes from V[X] (R152, `FONT_INDEX_MODE`). -/
def glyphIndex (p : Config.Params) (b : Byte) : Nat :=
  match p.fontIndexMode with
  | .full => b.toNat
  | .lowNibble => b.toNat % 16

/-- `trunc_16(0x050 + g * 5)` (R152). -/
def glyphAddr (p : Config.Params) (b : Byte) : Word :=
  BitVec.ofNat 16 (Config.fontBase + glyphIndex p b * 5)

/-- The three decimal digits, the most significant first (R153). -/
def bcdDigits (b : Byte) : List Byte :=
  [BitVec.ofNat 8 (b.toNat / 100), BitVec.ofNat 8 (b.toNat / 10 % 10), BitVec.ofNat 8 (b.toNat % 10)]

/-- V0..VF in ascending order. -/
def allRegs : List Reg := [0, 1, 2, 3, 4, 5, 6, 7, 8, 9, 10, 11, 12, 13, 14, 15]

/-- The registers 0..X in ascending order, X + 1 of them (R154, R155). -/
def regBlock (x : Reg) : List Reg := allRegs.take (x.val + 1)

/-- The key that V[X] selects, or the fault KeyIndex above 15 (R180, R181). -/
def keyOperand (b : Byte) : Except Fault Key :=
  if h : b.toNat < 16 then .ok ⟨b.toNat, h⟩ else .error (.keyIndex b)

/-- DXYN's anchor column: V[X] mod 64 (R161). -/
def anchorX (b : Byte) : Nat := b.toNat % 64

/-- DXYN's anchor row: V[Y] mod 32 (R161). -/
def anchorY (b : Byte) : Nat := b.toNat % 32

end Sys2Proof.Machine
end

