-- ==== Sys2Proof/Machine/Alu.lean ====
section
/-! DEFINITION. The register and arithmetic instructions (40_alu.md). pc already holds the next instruction's address when one runs (R130). -/

namespace Sys2Proof.Machine

/-- 6XNN, LD VX, NN (R110). -/
def execLdImm (x : Reg) (nn : Byte) (s : State) : Host.Outcome State Fault Refusal :=
  .next (s.setV x nn)

/-- 7XNN, ADD VX, NN: no flag (R111). -/
def execAddImm (x : Reg) (nn : Byte) (s : State) : Host.Outcome State Fault Refusal :=
  .next (s.setV x (s.getV x + nn))

/-- 8XY0, LD VX, VY: no flag (R112). -/
def execMov (x y : Reg) (s : State) : Host.Outcome State Fault Refusal :=
  .next (s.setV x (s.getV y))

/-- 8XY1, OR VX, VY: VF <- 0 (R113). -/
def execOr (x y : Reg) (s : State) : Host.Outcome State Fault Refusal :=
  .next (s.setResultFlag x (s.getV x ||| s.getV y) false)

/-- 8XY2, AND VX, VY: VF <- 0 (R114). -/
def execAnd (x y : Reg) (s : State) : Host.Outcome State Fault Refusal :=
  .next (s.setResultFlag x (s.getV x &&& s.getV y) false)

/-- 8XY3, XOR VX, VY: VF <- 0 (R115). -/
def execXor (x y : Reg) (s : State) : Host.Outcome State Fault Refusal :=
  .next (s.setResultFlag x (s.getV x ^^^ s.getV y) false)

/-- 8XY4, ADD VX, VY: VF <- the carry (R116). -/
def execAdd (x y : Reg) (s : State) : Host.Outcome State Fault Refusal :=
  .next (s.setResultFlag x (s.getV x + s.getV y) (carryOut (s.getV x) (s.getV y)))

/-- 8XY5, SUB VX, VY: VX − VY, VF <- no borrow (R117). -/
def execSub (x y : Reg) (s : State) : Host.Outcome State Fault Refusal :=
  .next (s.setResultFlag x (s.getV x - s.getV y) (noBorrow (s.getV x) (s.getV y)))

/-- 8XY6, SHR VX, VY: V[Y] >> 1, VF <- its bit 0 (R118). -/
def execShr (x y : Reg) (s : State) : Host.Outcome State Fault Refusal :=
  .next (s.setResultFlag x (s.getV y >>> 1) (lowBit (s.getV y)))

/-- 8XY7, SUBN VX, VY: VY − VX, VF <- no borrow (R119). -/
def execSubn (x y : Reg) (s : State) : Host.Outcome State Fault Refusal :=
  .next (s.setResultFlag x (s.getV y - s.getV x) (noBorrow (s.getV y) (s.getV x)))

/-- 8XYE, SHL VX, VY: V[Y] << 1, VF <- its bit 7 (R120). -/
def execShl (x y : Reg) (s : State) : Host.Outcome State Fault Refusal :=
  .next (s.setResultFlag x (s.getV y <<< 1) (highBit (s.getV y)))

/-- CXNN, RND VX, NN: V[X] <- a free draw AND NN (R121). -/
def execRnd (x : Reg) (nn : Byte) (s : State) : Host.Outcome State Fault Refusal :=
  .next (s.setV x (s.draw &&& nn)).countDraw

end Sys2Proof.Machine
end

