-- ==== Sys2Proof/Machine/Control.lean ====
section
/-! DEFINITION. The control-transfer instructions (41_control.md). pc already holds the next instruction's address when one runs (R130). -/

namespace Sys2Proof.Machine

/-- 0NNN, SYS NNN: always the fault SysUnsupported, which records the word (R134, R202). -/
def execSys (nnn : Addr12) (s : State) : Host.Outcome State Fault Refusal :=
  raise (.sysUnsupported (sysWord nnn)) s

/-- 00EE, RET (R133). -/
def execRet (s : State) : Host.Outcome State Fault Refusal :=
  s.popPc

/-- 1NNN, JP NNN (R135). -/
def execJp (nnn : Addr12) (s : State) : Host.Outcome State Fault Refusal :=
  .next (s.setPc (addrOperand nnn))

/-- 2NNN, CALL NNN (R136). -/
def execCall (nnn : Addr12) (s : State) : Host.Outcome State Fault Refusal :=
  s.call (addrOperand nnn)

/-- BNNN, JP V0, NNN (R137). -/
def execJpV0 (nnn : Addr12) (s : State) : Host.Outcome State Fault Refusal :=
  .next (s.setPc (s.jumpV0Target nnn))

/-- 3XNN, SE VX, NN (R138, R142). -/
def execSeImm (x : Reg) (nn : Byte) (s : State) : Host.Outcome State Fault Refusal :=
  .next (s.skipIf (s.getV x = nn))

/-- 4XNN, SNE VX, NN (R139, R142). -/
def execSneImm (x : Reg) (nn : Byte) (s : State) : Host.Outcome State Fault Refusal :=
  .next (s.skipIf (s.getV x ≠ nn))

/-- 5XY0, SE VX, VY (R140, R142). -/
def execSeReg (x y : Reg) (s : State) : Host.Outcome State Fault Refusal :=
  .next (s.skipIf (s.getV x = s.getV y))

/-- 9XY0, SNE VX, VY (R141, R142). -/
def execSneReg (x y : Reg) (s : State) : Host.Outcome State Fault Refusal :=
  .next (s.skipIf (s.getV x ≠ s.getV y))

end Sys2Proof.Machine
end

