-- ==== Sys2Proof/Machine/Display.lean ====
section
/-! DEFINITION. The display instructions (43_display.md). -/

namespace Sys2Proof.Machine

/-- Every cell unlit (R160). -/
def clearDisplay : Display := Vector.replicate 32 (Vector.replicate 64 false)

/-- 00E0, CLS: VF is not written (R160). -/
def execCls (s : State) : Host.Outcome State Fault Refusal :=
  .next (s.setDisp clearDisplay)

/-- DXYN, DRW VX, VY, N: the rows drawn, then VF <- the collision; when a row's read faults, the rows
before it stay drawn and VF is not written (R161, R210). -/
def execDrw (x y : Reg) (n : Fin 16) (s : State) : Host.Outcome State Fault Refusal :=
  match drawRows s (anchorX (s.getV x)) (anchorY (s.getV y)) n.val 0 { disp := s.disp, hit := false } with
  | (c, none) => .next ((s.setDisp c.disp).setV vF (flagByte c.hit))
  | (c, some e) => raise e (s.setDisp c.disp)

end Sys2Proof.Machine
end

