-- ==== Sys2Proof/Machine/IndexMemory.lean ====
section
/-! DEFINITION. The index-register and memory instructions (42_index_memory.md). -/

namespace Sys2Proof.Machine

/-- ANNN, LD I, NNN (R150). -/
def execLdI (nnn : Addr12) (s : State) : Host.Outcome State Fault Refusal :=
  .next (s.setIndex (addrOperand nnn))

/-- FX1E, ADD I, VX: wraps modulo 2^16, no flag (R151). -/
def execAddIVx (x : Reg) (s : State) : Host.Outcome State Fault Refusal :=
  .next (s.setIndex (s.indexPlus (s.getV x)))

/-- FX29, LD F, VX: the address of a glyph (R152). -/
def execLdFVx (x : Reg) (s : State) : Host.Outcome State Fault Refusal :=
  .next (s.setIndex (glyphAddr s.params (s.getV x)))

/-- FX33, LD B, VX: three decimal digits to I, I + 1, I + 2 (R153). -/
def execLdBVx (x : Reg) (s : State) : Host.Outcome State Fault Refusal :=
  (storeBytes (bcdDigits (s.getV x)) (s.indexAddr 0) s).finish id

/-- FX55, LD [I], VX: V0..VX to memory from I up, then I past them (R154). -/
def execLdMemVx (x : Reg) (s : State) : Host.Outcome State Fault Refusal :=
  (storeBytes ((regBlock x).map s.getV) (s.indexAddr 0) s).finish fun t => t.setIndex (t.indexAfterBlock x)

/-- FX65, LD VX, [I]: V0..VX from memory from I up, then I past them (R155). -/
def execLdVxMem (x : Reg) (s : State) : Host.Outcome State Fault Refusal :=
  (loadRegs (regBlock x) (s.indexAddr 0) s).finish fun t => t.setIndex (t.indexAfterBlock x)

end Sys2Proof.Machine
end

