-- ==== Sys2Proof/Machine/Input.lean ====
section
/-! DEFINITION. The key instructions (45_input.md). -/

namespace Sys2Proof.Machine

/-- EX9E, SKP VX: skip if the key is pressed (R180). -/
def execSkp (x : Reg) (s : State) : Host.Outcome State Fault Refusal :=
  match keyOperand (s.getV x) with
  | .error c => raise c s
  | .ok k => .next (s.skipIf (s.key k))

/-- EXA1, SKNP VX: skip if the key is not pressed (R181). -/
def execSknp (x : Reg) (s : State) : Host.Outcome State Fault Refusal :=
  match keyOperand (s.getV x) with
  | .error c => raise c s
  | .ok k => .next (s.skipIf (!s.key k))

/-- A key index as a register holds it, 0..15 (R182, R216). -/
def keyByte (k : Key) : Byte := BitVec.ofNat 8 k.val

/-- FX0A, LD VX, K: the lowest pressed key, or the self-repeat when none is pressed (R182). -/
def execLdVxK (x : Reg) (s : State) : Host.Outcome State Fault Refusal :=
  match s.lowestKey with
  | some k => .next (s.setV x (keyByte k))
  | none => .next s.rewindPc

end Sys2Proof.Machine
end

