-- ==== Sys2Proof/Machine/Step.lean ====
section
/-! DEFINITION. The machine's one step, and the placing of an opcode-table word where it fetches. -/

namespace Sys2Proof.Machine

/-- One `step()` call (R7, R130 to R132). -/
def step (s : State) : Host.Outcome State Fault Refusal := cycle exec s

/-- `s` with the opcode table's word placed where the next step fetches (log entry 8). -/
def State.withFetchWord (s : State) (nbits w : Nat) : State := s.placeWord (tableWord nbits w)

end Sys2Proof.Machine
end

