-- ==== Sys2Proof/Machine/HostInterface.lean ====
section
/-! DEFINITION. The host's operations (R7): the replies of step, the timer tick, key press and release, load, reset, the display view, and runs of any of them in any order. -/

namespace Sys2Proof.Machine

/-- What a `step()` returns (R8). -/
inductive StepReply where
  | executed
  | repeated
  | latched
  | faulted (c : Fault)
deriving DecidableEq, Repr

/-- What `load` returns (R208, R252). -/
inductive LoadReply where
  | ok
  | loadCapacity (len : Nat)
deriving DecidableEq, Repr

/-- `Peek()`: the word at pc as the fetch would read it, or none; it writes nothing (R218). -/
def peek (s : State) : Option Word :=
  match fetch s with
  | .ok w => some w
  | .error _ => none

/-- The register of the wait-for-key that is next to execute, if it is one (R216, R218). -/
def waitRegister (s : State) : Option Reg :=
  match peek s with
  | none => none
  | some w =>
    match decode w with
    | .instr (.ldVxK x) => some x
    | _ => none

/-- The state after a `step()`; a step that answers a fault has changed nothing (R132). -/
def stepState (s : State) : State :=
  match step s with
  | .next t => t
  | .fault _ | .refused _ => s

/-- A `step()` that runs FX0A with no key pressed (R8, R182). -/
def selfRepeats (s : State) : Bool := (waitRegister s).isSome && s.lowestKey.isNone

/-- Which of the four outcomes a `step()` returns (R8): a fault recorded before or in it, else the refusal
of latched mode, else the self-repeat, else executed. -/
def stepReply (s : State) : StepReply :=
  match (stepState s).fault with
  | some c => .faulted c
  | none => if s.latched then .latched else if selfRepeats s then .repeated else .executed

/-- `tick_timers()`, in every mode; the boolean is the sound signal (R214, R215). -/
def tickTimers (s : State) : State × Bool :=
  ((s.setDt (if s.dt = 0 then 0 else s.dt - 1)).setSt (if s.st = 0 then 0 else s.st - 1), s.st ≠ 0)

/-- key[k] <- b (R216, R217). -/
def State.setKey (s : State) (k : Key) (b : Bool) : State := { s with keys := s.keys.set k.val b }

/-- The key of the press that satisfied FX0A, and latched mode (R216). -/
def State.latch (s : State) (k : Key) : State := { s with latched := true, latchedKey := k }

/-- Latched mode ends (R217). -/
def State.unlatch (s : State) : State := { s with latched := false }

/-- The lowest key pressed, once `k` is; `k` itself if none is lower. -/
def State.lowestKeyOr (s : State) (k : Key) : Key := s.lowestKey.getD k

/-- `press(k)`, and whether the machine has just become latched (R216). -/
def press (k : Key) (s : State) : State × Bool :=
  let t := s.setKey k true
  if t.fault.isSome || t.latched then (t, false)
  else
    match waitRegister t with
    | none => (t, false)
    | some x => (((t.setV x (BitVec.ofNat 8 (t.lowestKeyOr k).val)).advancePc).latch k, true)

/-- `release(k)` (R217). -/
def release (k : Key) (s : State) : State :=
  let t := s.setKey k false
  if t.latched && k = t.latchedKey then t.unlatch else t

/-- `load(bytes)`: the bytes from 0x200 up, or LoadCapacity with memory unchanged; nothing else is
written (R252). -/
def load (bytes : List Byte) (s : State) : State × LoadReply :=
  if Config.maxProgram < bytes.length then (s, .loadCapacity bytes.length)
  else (s.setMem (s.mem.writeAll s.params Config.programBase bytes), .ok)

/-- `reset()`: every state element at its reset value, the parameters being fixed (R250, R251). The
model's count of draws goes on, so that no draw is given twice (DESIGN CHOICE, log entry 2). -/
def resetMachine (s : State) : State := { State.construct s.params with draws := s.draws }

/-- The read-only display view: row-major, element y × 64 + x is cell (x, y) (R162). -/
def displayView (s : State) : List Bool := s.disp.toList.flatMap Vector.toList

/-- A call the host can make (R7). -/
inductive HostCall where
  | step
  | tickTimers
  | press (k : Key)
  | release (k : Key)
  | load (bytes : List Byte)
  | reset
  | display
deriving DecidableEq, Repr

/-- What a call returns to the host (R7, R8). -/
inductive HostReply where
  | step (r : StepReply)
  | sound (on : Bool)
  | latched (now : Bool)
  | load (r : LoadReply)
  | display (cells : List Bool)
  | done
deriving DecidableEq, Repr

/-- One host call: the state after it and its reply (R7). -/
def hostCall (c : HostCall) (s : State) : State × HostReply :=
  match c with
  | .step => (stepState s, .step (stepReply s))
  | .tickTimers => ((tickTimers s).1, .sound (tickTimers s).2)
  | .press k => ((press k s).1, .latched (press k s).2)
  | .release k => (release k s, .done)
  | .load bytes => ((load bytes s).1, .load (load bytes s).2)
  | .reset => (resetMachine s, .done)
  | .display => (s, .display (displayView s))

/-- A run: any list of host calls, one after another (R223). -/
def hostRun : List HostCall → State → State
  | [], s => s
  | c :: cs, s => hostRun cs (hostCall c s).1

end Sys2Proof.Machine
end

