-- ==== Sys2Proof/Safety.lean ====
section
/-! DEFINITION. The terms claims are stated in: a machine that may advance, the invariant of every host call, the parts of the state and what a change leaves alone, which parts and registers each instruction may write, sprites as sets of cells. -/

namespace Sys2Proof.Machine

/-- No fault is recorded and the machine is not in latched mode: a step runs an instruction (R130). -/
def State.Running (s : State) : Prop := s.fault = none ∧ s.latched = false

/-- What every host call keeps: memory in canonical form, the font as FONT_DATA gives it ("immutable font
table", R54), no more calls nested than STACK_USABLE allows (R25, R136), and in latched mode the key
whose release ends it still pressed (R216, R217). -/
structure State.Inv (s : State) : Prop where
  memWf : s.mem.wf s.params
  fontIntact : ∀ k : Fin 80, s.byteAt (Config.fontBase + k.val) = s.params.font[k.val]
  spBound : s.sp ≤ s.params.stackUsable
  latchedKeyHeld : s.latched = true → s.key s.latchedKey = true

/-- The parts of the state that a frame speaks of. -/
inductive Part where
  | regs | index | pc | stack | sp | dt | st | keys | latched | latchedKey | disp | mem | fault | draws | params
deriving DecidableEq, Repr

/-- The part reads the same in `t` as in `s`; registers and memory one by one. -/
def Kept (s t : State) : Part → Prop
  | .regs => ∀ r, t.getV r = s.getV r
  | .index => t.index = s.index
  | .pc => t.pc = s.pc
  | .stack => t.stack = s.stack
  | .sp => t.sp = s.sp
  | .dt => t.dt = s.dt
  | .st => t.st = s.st
  | .keys => t.keys = s.keys
  | .latched => t.latched = s.latched
  | .latchedKey => t.latchedKey = s.latchedKey
  | .disp => t.disp = s.disp
  | .mem => ∀ a, t.byteAt a = s.byteAt a
  | .fault => t.fault = s.fault
  | .draws => t.draws = s.draws
  | .params => t.params = s.params

/-- Nothing but the parts listed may differ between `s` and `t`. -/
def OnlyChanges (parts : List Part) (s t : State) : Prop := ∀ p, p ∉ parts → Kept s t p

/-- No register but those listed differs between `s` and `t`. -/
def RegsKeptBut (rs : List Reg) (s t : State) : Prop := ∀ r, r ∉ rs → t.getV r = s.getV r

/-- No byte of memory but the `n` from address `a` up differs between `s` and `t`. -/
def BytesKeptBut (a n : Nat) (s t : State) : Prop :=
  ∀ b, b < a ∨ a + n ≤ b → t.byteAt b = s.byteAt b

/-- A program's write to address `a` raises `c` (R54). -/
def WriteFaults (a : Nat) (c : Fault) : Prop :=
  (4096 ≤ a ∧ c = .memoryBounds a) ∨ (0x050 ≤ a ∧ a ≤ 0x09F ∧ c = .fontWrite a)

/-- A program may write the `n` addresses from `a` up (R54). -/
def Writable (a n : Nat) : Prop := ∀ j, j < n → ∀ c, ¬ WriteFaults (a + j) c

/-- DXYN's sprite of `n` rows, anchored at (ax, ay), has a 1-bit at cell (x, y): the cell lies at column
c < 8 and row r < n from the anchor, and bit 7 − c of the byte at I + r is 1 (R161). -/
def SpriteBit (s : State) (ax ay n x y : Nat) : Prop :=
  ax ≤ x ∧ x < ax + 8 ∧ ay ≤ y ∧ y < ay + n ∧
    (s.byteAt (s.index.toNat + (y - ay))).getLsbD (7 - (x - ax)) = true

/-- Some lit cell of the display lies under a 1-bit of the sprite (R161). -/
def SpriteHits (s : State) (ax ay n : Nat) : Prop :=
  ∃ x y, x < 64 ∧ y < 32 ∧ s.disp.cell x y = true ∧ SpriteBit s ax ay n x y

/-- `decode` reads the word whose value is `w` as the instruction `i` (R84). -/
def DecodesTo (w : Nat) (i : Instr) : Prop := decode (BitVec.ofNat 16 w) = .instr i

/-- The word whose value is `w` decodes to no shape, and the error names it (R84, R86). -/
def IllegalWord (w : Nat) : Prop := decode (BitVec.ofNat 16 w) = .decodeError (BitVec.ofNat 16 w)

/-- The parts of the state an instruction may write, as its rule gives them (40_alu.md to 45_input.md). -/
def mayChange : Instr → List Part
  | .sys _ => [.fault]
  | .cls => [.disp]
  | .ret => [.sp, .pc, .fault]
  | .jp _ | .jpV0 _ => [.pc]
  | .call _ => [.stack, .sp, .pc, .fault]
  | .seImm _ _ | .sneImm _ _ | .seReg _ _ | .sneReg _ _ => [.pc]
  | .ldImm _ _ | .addImm _ _ | .mov _ _ | .or _ _ | .and _ _ | .xor _ _ | .add _ _ | .sub _ _
  | .shr _ _ | .subn _ _ | .shl _ _ => [.regs]
  | .rnd _ _ => [.regs, .draws]
  | .ldI _ | .addIVx _ | .ldFVx _ => [.index]
  | .drw _ _ _ => [.regs, .disp, .fault]
  | .skp _ | .sknp _ => [.pc, .fault]
  | .ldVxDt _ => [.regs]
  | .ldVxK _ => [.regs, .pc]
  | .ldDtVx _ => [.dt]
  | .ldStVx _ => [.st]
  | .ldBVx _ => [.mem, .fault]
  | .ldMemVx _ => [.mem, .index, .fault]
  | .ldVxMem _ => [.regs, .index, .fault]

/-- The registers an instruction may write: the one its X field names as a destination, VF where the rule
gives a flag, V0..VX for the block load (R21). -/
def mayWriteReg : Instr → Reg → Bool
  | .ldImm x _, r | .addImm x _, r | .mov x _, r | .rnd x _, r | .ldVxDt x, r | .ldVxK x, r => r = x
  | .or x _, r | .and x _, r | .xor x _, r | .add x _, r | .sub x _, r | .shr x _, r | .subn x _, r
  | .shl x _, r => r = x || r = vF
  | .drw _ _ _, r => r = vF
  | .ldVxMem x, r => r ≤ x
  | .sys _, _ | .cls, _ | .ret, _ | .jp _, _ | .call _, _ | .seImm _ _, _ | .sneImm _ _, _
  | .seReg _ _, _ | .sneReg _ _, _ | .ldI _, _ | .jpV0 _, _ | .skp _, _ | .sknp _, _ | .ldDtVx _, _
  | .ldStVx _, _ | .addIVx _, _ | .ldFVx _, _ | .ldBVx _, _ | .ldMemVx _, _ => false

end Sys2Proof.Machine
end

