-- ==== Sys2Proof/Certificates/Slice0/Obligations.lean ====
section
/-! DEFINITION. The statements for the provers. A docstring that names a decision D<n> of spec/92_eei_decisions.md says that the clause rests on the spec's own choice there, not on its source (log entry 5). A clause DecodesTo states the Encoding line of the instruction's rule; the bit patterns are the spec's general knowledge (log entry 4). -/

open Sys2Proof Sys2Proof.Machine

/-! ### Encoding (30_encoding.md) -/

/-- One word or more of each family and of each format, written out from the patterns of R84, decodes to its
instruction (the patterns are the spec's general knowledge, log entry 4). -/
def Obligations.DecodeReadsWrittenOutWords : Prop :=
  decode 0b0000000100100011 = .instr (.sys 0x123) ∧
  decode 0b0000000011100000 = .instr .cls ∧
  decode 0b0000000011101110 = .instr .ret ∧
  decode 0b0010101010111100 = .instr (.call 0xABC) ∧
  decode 0b0110101001000010 = .instr (.ldImm 10 0x42) ∧
  decode 0b1000000000010100 = .instr (.add 0 1) ∧
  decode 0b1000111100001110 = .instr (.shl 15 0) ∧
  decode 0b1101101010110010 = .instr (.drw 10 11 2) ∧
  decode 0b1110000110011110 = .instr (.skp 1) ∧
  decode 0b1111001100001010 = .instr (.ldVxK 3) ∧
  decode 0b1111001100000111 = .instr (.ldVxDt 3) ∧
  decode 0b1111000000010101 = .instr (.ldDtVx 0) ∧
  decode 0b1111010000011000 = .instr (.ldStVx 4) ∧
  decode 0b1010001100000000 = .instr (.ldI 0x300) ∧
  decode 0b1111001101010101 = .instr (.ldMemVx 3) ∧
  decode 0b0101000100100001 = .decodeError 0x5121

/-- Every well-formed instruction, with every operand, is read back from its word and from its two bytes. -/
def Obligations.DecodeOfEncodeIsTheInstruction : Prop :=
  ∀ i : Instr, i.wellFormed = true →
    decode (encode i) = .instr i ∧
    decodeBytes [highByte (encode i), lowByte (encode i)] = some (.instr i, [])

/-- A word that decodes to an instruction is that instruction's encoding, and no other's: the instruction
is well-formed and every bit of the word is in its fields. -/
def Obligations.EncodeOfDecodeIsTheWord : Prop :=
  ∀ (w : Word) (i : Instr), decode w = .instr i → i.wellFormed = true ∧ encode i = w

/-- The words that decode to no shape are those that R86 lists, and DecodeError names the word. -/
def Obligations.DecodeErrorOnExactlyTheIllegalWords : Prop :=
  ∀ w : Word,
    (∀ w', decode w = .decodeError w' → w' = w) ∧
    (decode w = .decodeError w ↔
      ((w.toNat / 4096 = 0x5 ∨ w.toNat / 4096 = 0x9) ∧ w.toNat % 16 ≠ 0) ∨
      (w.toNat / 4096 = 0x8 ∧ w.toNat % 16 ∈ [0x8, 0x9, 0xA, 0xB, 0xC, 0xD, 0xF]) ∨
      (w.toNat / 4096 = 0xE ∧ w.toNat % 256 ∉ [0x9E, 0xA1]) ∨
      (w.toNat / 4096 = 0xF ∧
        w.toNat % 256 ∉ [0x07, 0x0A, 0x15, 0x18, 0x1E, 0x29, 0x33, 0x55, 0x65]))

/-! ### The cycle (41_control.md) and faults (60_exceptions.md) -/

/-- A step of a running machine whose two bytes at pc decode to `i` is `i`'s effect in the state whose pc,
and nothing else, has moved past the word. -/
def Obligations.StepRunsTheDecodedInstruction : Prop :=
  ∀ (s : State) (i : Instr), s.Running → s.pc.toNat + 1 < 4096 →
    decode (wordOfBytes (s.byteAt s.pc.toNat) (s.byteAt (s.pc.toNat + 1))) = .instr i →
    step s = exec i s.advancePc ∧ s.advancePc.pc = s.pc + 2 ∧ OnlyChanges [.pc] s s.advancePc

/-- The fetch reads two bytes, the lower address giving the high byte, and faults as R55 says at the top of
memory and beyond (D1). -/
def Obligations.FetchIsBigEndianAndChecked : Prop :=
  ∀ s : State,
    (s.pc.toNat + 1 < 4096 → ∃ w, fetch s = .ok w ∧
      w.toNat = 256 * (s.byteAt s.pc.toNat).toNat + (s.byteAt (s.pc.toNat + 1)).toNat) ∧
    (s.pc.toNat = 4095 → fetch s = .error (.memoryBounds 4096)) ∧
    (4096 ≤ s.pc.toNat → fetch s = .error (.memoryBounds s.pc.toNat))

/-- A step whose fetch faults records the fault and leaves everything else, pc included (D1, D24; log entry 1). -/
def Obligations.FetchFaultLeavesThePc : Prop :=
  ∀ s : State, s.Running → 4095 ≤ s.pc.toNat →
    ∃ t, step s = .next t ∧ t.fault = some (.memoryBounds (max s.pc.toNat 4096)) ∧
      OnlyChanges [.fault] s t ∧ stepReply s = .faulted (.memoryBounds (max s.pc.toNat 4096))

/-- A step whose fetched word decodes to no shape records DecodeError of that word, with pc already past
it and nothing else changed, and surfaces the fault to the host (the fault record and code 1 are D24; log entry 1). -/
def Obligations.UndecodedWordIsSurfacedAsFault : Prop :=
  ∀ (s : State) (w w' : Word), s.Running → fetch s = .ok w → decode w = .decodeError w' →
    ∃ t, step s = .next t ∧ t.fault = some (.decodeError w) ∧ t.pc = s.pc + 2 ∧
      OnlyChanges [.pc, .fault] s t ∧ stepReply s = .faulted (.decodeError w) ∧
      (Fault.decodeError w).code = 1

/-- A step of a faulted machine returns the recorded fault and changes nothing, latched or not (D24); a step
in latched mode changes nothing and returns Latched (D23). -/
def Obligations.FaultedOrLatchedStepChangesNothing : Prop :=
  ∀ s : State,
    (∀ c, s.fault = some c → step s = .fault c ∧ hostCall .step s = (s, .step (.faulted c))) ∧
    (s.fault = none → s.latched = true →
      step s = .next s ∧ hostCall .step s = (s, .step .latched))

/-- A step reports its outcome (R8; D23, D24): the fault it raised, Repeated exactly for FX0A with no key
pressed, and Executed otherwise. -/
def Obligations.StepReportsItsOutcome : Prop :=
  ∀ (s : State) (w : Word) (i : Instr), s.Running → fetch s = .ok w → decode w = .instr i →
    ∃ t, exec i s.advancePc = .next t ∧
      (∀ c, t.fault = some c → stepReply s = .faulted c) ∧
      (t.fault = none → (∃ x, i = .ldVxK x) → (∀ k, s.key k = false) → stepReply s = .repeated) ∧
      (t.fault = none → ¬ ((∃ x, i = .ldVxK x) ∧ ∀ k, s.key k = false) → stepReply s = .executed)

/-- Every instruction runs in every state, and a machine with no fault recorded always steps to a next state:
there is one mode and no instruction is refused (D36). That SYS, a RET with an empty stack, a CALL with a full one and
every faulting fetch or access answer a next state is the model's reading: a fault is taken as a next state (log entry 1). -/
def Obligations.EveryInstructionRunsInEveryState : Prop :=
  (∀ (i : Instr) (s : State), ∃ t, exec i s = .next t) ∧
  (∀ s : State, s.fault = none → ∃ t, step s = .next t)

/-- Once a fault is recorded, no sequence of host calls without a reset clears it or moves the program: only
keys, timers, memory (through load) and the latch may change (D24, D27, D30); a reset clears it. -/
def Obligations.FaultStaysUntilReset : Prop :=
  ∀ (cs : List HostCall) (s : State) (c : Fault), s.fault = some c →
    (HostCall.reset ∉ cs → (hostRun cs s).fault = some c ∧
      OnlyChanges [.keys, .dt, .st, .mem, .latched] s (hostRun cs s)) ∧
    (hostRun (cs ++ [.reset]) s).fault = none

/-! ### Whole-machine frames (10_state.md) -/

/-- An instruction writes only the parts of the state that its rule names, so for instance the keys and the
latch are never an instruction's to write, and memory is written by FX33 and FX55 alone. -/
def Obligations.InstructionsWriteOnlyTheirParts : Prop :=
  ∀ (i : Instr) (s t : State), exec i s = .next t → OnlyChanges (mayChange i) s t

/-- A register changes only under an instruction that names it as a destination, and VF also under the
instructions that write a flag (R21; D6, D7). -/
def Obligations.RegistersChangeOnlyUnderTheirWriters : Prop :=
  ∀ (i : Instr) (s t : State) (r : Reg), exec i s = .next t → mayWriteReg i r = false →
    t.getV r = s.getV r

/-- An instruction records a fault only from the list its rule gives (60_exceptions.md; D1, D2, D4, D14,
D24; log entry 1). -/
def Obligations.FaultsComeFromTheirInstructions : Prop :=
  ∀ (i : Instr) (s t : State) (c : Fault), exec i s = .next t → s.fault = none → t.fault = some c →
    (∃ nnn, i = .sys nnn ∧ c = .sysUnsupported (nnn.setWidth 16)) ∨
    (i = .ret ∧ c = .stackUnderflow) ∨
    (∃ nnn, i = .call nnn ∧ c = .stackOverflow) ∨
    ((∃ x, i = .skp x ∨ i = .sknp x) ∧ ∃ k : Byte, 15 < k.toNat ∧ c = .keyIndex k) ∨
    (((∃ x y n, i = .drw x y n) ∨ ∃ x, i = .ldVxMem x) ∧ ∃ a, 4096 ≤ a ∧ c = .memoryBounds a) ∨
    ((∃ x, i = .ldBVx x ∨ i = .ldMemVx x) ∧ ∃ a, WriteFaults a c)

/-! ### Registers and arithmetic (40_alu.md) -/

/-- LD VX, NN loads the immediate and changes nothing else. -/
def Obligations.LoadImmediateSetsTheRegister : Prop :=
  ∀ (x : Reg) (nn : Byte) (s : State),
    DecodesTo (0x6000 + 0x100 * x.val + nn.toNat) (.ldImm x nn) ∧
    ∃ t, exec (.ldImm x nn) s = .next t ∧ t.getV x = nn ∧
      RegsKeptBut [x] s t ∧ OnlyChanges [.regs] s t

/-- ADD VX, NN adds modulo 256 and LD VX, VY copies; neither writes a flag (D6, D10). -/
def Obligations.ImmediateAddAndMoveWriteNoFlag : Prop :=
  ∀ (x y : Reg) (nn : Byte) (s : State),
    (∃ t, exec (.addImm x nn) s = .next t ∧
      (t.getV x).toNat = ((s.getV x).toNat + nn.toNat) % 256 ∧
      RegsKeptBut [x] s t ∧ OnlyChanges [.regs] s t) ∧
    (∃ t, exec (.mov x y) s = .next t ∧ t.getV x = s.getV y ∧
      RegsKeptBut [x] s t ∧ OnlyChanges [.regs] s t)

/-- OR, AND and XOR combine bit by bit, and VF ends at 0 whatever it was, also when it is the
destination (D5). -/
def Obligations.LogicCombinesBitsAndClearsFlag : Prop :=
  ∀ (x y : Reg) (s : State),
    (DecodesTo (0x8001 + 0x100 * x.val + 0x10 * y.val) (.or x y) ∧
      ∃ t, exec (.or x y) s = .next t ∧ t.getV 15 = 0 ∧
      (x ≠ 15 → ∀ b, (t.getV x).getLsbD b = ((s.getV x).getLsbD b || (s.getV y).getLsbD b)) ∧
      RegsKeptBut [x, 15] s t ∧ OnlyChanges [.regs] s t) ∧
    (DecodesTo (0x8002 + 0x100 * x.val + 0x10 * y.val) (.and x y) ∧
      ∃ t, exec (.and x y) s = .next t ∧ t.getV 15 = 0 ∧
      (x ≠ 15 → ∀ b, (t.getV x).getLsbD b = ((s.getV x).getLsbD b && (s.getV y).getLsbD b)) ∧
      RegsKeptBut [x, 15] s t ∧ OnlyChanges [.regs] s t) ∧
    (DecodesTo (0x8003 + 0x100 * x.val + 0x10 * y.val) (.xor x y) ∧
      ∃ t, exec (.xor x y) s = .next t ∧ t.getV 15 = 0 ∧
      (x ≠ 15 → ∀ b, (t.getV x).getLsbD b = ((s.getV x).getLsbD b ^^ (s.getV y).getLsbD b)) ∧
      RegsKeptBut [x, 15] s t ∧ OnlyChanges [.regs] s t)

/-- ADD VX, VY: the sum modulo 256, and VF = 1 iff a + b ≥ 256; with X = 15 the flag stays (D5). -/
def Obligations.AddWritesSumAndCarry : Prop :=
  ∀ (x y : Reg) (s : State),
    DecodesTo (0x8004 + 0x100 * x.val + 0x10 * y.val) (.add x y) ∧
    ∃ t, exec (.add x y) s = .next t ∧
      (x ≠ 15 → (t.getV x).toNat = ((s.getV x).toNat + (s.getV y).toNat) % 256) ∧
      t.getV 15 = (if 256 ≤ (s.getV x).toNat + (s.getV y).toNat then 1 else 0) ∧
      RegsKeptBut [x, 15] s t ∧ OnlyChanges [.regs] s t

/-- SUB VX, VY: a − b modulo 256, and VF = 1 iff a ≥ b; with X = 15 the flag stays (D5). -/
def Obligations.SubWritesDifferenceAndNoBorrow : Prop :=
  ∀ (x y : Reg) (s : State),
    DecodesTo (0x8005 + 0x100 * x.val + 0x10 * y.val) (.sub x y) ∧
    ∃ t, exec (.sub x y) s = .next t ∧
      (x ≠ 15 → (t.getV x).toNat = ((s.getV x).toNat + 256 - (s.getV y).toNat) % 256) ∧
      t.getV 15 = (if (s.getV y).toNat ≤ (s.getV x).toNat then 1 else 0) ∧
      RegsKeptBut [x, 15] s t ∧ OnlyChanges [.regs] s t

/-- SUBN VX, VY subtracts in the reverse order: VY − VX, VF = 1 iff VY ≥ VX (D11), also with X = 15 (D5). -/
def Obligations.SubnSubtractsInReverse : Prop :=
  ∀ (x y : Reg) (s : State),
    ∃ t, exec (.subn x y) s = .next t ∧
      (x ≠ 15 → (t.getV x).toNat = ((s.getV y).toNat + 256 - (s.getV x).toNat) % 256) ∧
      t.getV 15 = (if (s.getV x).toNat ≤ (s.getV y).toNat then 1 else 0) ∧
      RegsKeptBut [x, 15] s t ∧ OnlyChanges [.regs] s t

/-- SHR and SHL shift V[Y] by one into V[X], whatever V[X] was, and VF is the bit shifted out, also with
X = 15 (D5). -/
def Obligations.ShiftsReadYAndReportTheBitLost : Prop :=
  ∀ (x y : Reg) (s : State),
    (DecodesTo (0x8006 + 0x100 * x.val + 0x10 * y.val) (.shr x y) ∧
      ∃ t, exec (.shr x y) s = .next t ∧
      (x ≠ 15 → (t.getV x).toNat = (s.getV y).toNat / 2) ∧
      (t.getV 15).toNat = (s.getV y).toNat % 2 ∧
      RegsKeptBut [x, 15] s t ∧ OnlyChanges [.regs] s t) ∧
    (DecodesTo (0x800E + 0x100 * x.val + 0x10 * y.val) (.shl x y) ∧
      ∃ t, exec (.shl x y) s = .next t ∧
      (x ≠ 15 → (t.getV x).toNat = (s.getV y).toNat * 2 % 256) ∧
      (t.getV 15).toNat = (s.getV y).toNat / 128 ∧
      RegsKeptBut [x, 15] s t ∧ OnlyChanges [.regs] s t)

/-- RND VX, NN: the next free draw AND NN, whatever the draw is, and one draw is taken; no bit outside NN is
ever set (D9; log entry 2). -/
def Obligations.RandomLoadMasksAFreeDraw : Prop :=
  ∀ (x : Reg) (nn : Byte) (s : State),
    ∃ t, exec (.rnd x nn) s = .next t ∧
      (∀ b, (t.getV x).getLsbD b = ((Config.rngDraw s.draws).getLsbD b && nn.getLsbD b)) ∧
      (nn = 0 → t.getV x = 0) ∧ t.draws = s.draws + 1 ∧
      RegsKeptBut [x] s t ∧ OnlyChanges [.regs, .draws] s t

/-! ### Control transfer (41_control.md) -/

/-- JP NNN sets pc and nothing else; a jump to its own address loops forever with no state change. -/
def Obligations.JumpSetsPcAndSelfJumpIsFixed : Prop :=
  (∀ (nnn : Addr12) (s : State),
    DecodesTo (0x1000 + nnn.toNat) (.jp nnn) ∧
    ∃ t, exec (.jp nnn) s = .next t ∧ t.pc.toNat = nnn.toNat ∧ OnlyChanges [.pc] s t) ∧
  (∀ (s : State) (w : Word), s.Running → fetch s = .ok w → w.toNat = 0x1000 + s.pc.toNat →
    ∀ n, Sys2Proof.core.run n s = .next s)

/-- CALL NNN pushes the address after the call, or records StackOverflow when STACK_USABLE entries are in
use, changing nothing else (D17, D24; log entry 1). -/
def Obligations.CallPushesReturnAddressOrOverflows : Prop :=
  ∀ (nnn : Addr12) (s : State),
    (s.sp < s.params.stackUsable →
      ∃ t, exec (.call nnn) s = .next t ∧ t.stack[s.sp.val]? = some s.pc ∧
        t.sp.val = s.sp.val + 1 ∧ t.pc.toNat = nnn.toNat ∧
        (∀ j : Nat, j ≠ s.sp.val → t.stack[j]? = s.stack[j]?) ∧
        OnlyChanges [.stack, .sp, .pc] s t) ∧
    (s.params.stackUsable ≤ s.sp →
      ∃ t, exec (.call nnn) s = .next t ∧ t.fault = some .stackOverflow ∧ OnlyChanges [.fault] s t)

/-- RET pops the top entry into pc, leaving its stale value on the stack (D18), or records StackUnderflow when
the stack is empty, changing nothing else (D24; log entry 1). -/
def Obligations.ReturnPopsOrUnderflows : Prop :=
  ∀ s : State,
    (s.sp ≠ 0 →
      ∃ t, exec .ret s = .next t ∧ some t.pc = s.stack[s.sp.val - 1]? ∧
        t.sp.val + 1 = s.sp.val ∧ OnlyChanges [.sp, .pc] s t) ∧
    (s.sp = 0 →
      ∃ t, exec .ret s = .next t ∧ t.fault = some .stackUnderflow ∧ OnlyChanges [.fault] s t)

/-- After a call that finds room, a return in any state with the same stack goes back to the address after the
call, and the entries below are as they were. -/
def Obligations.ReturnUndoesCall : Prop :=
  ∀ (nnn : Addr12) (s t u : State), s.sp < s.params.stackUsable → exec (.call nnn) s = .next t →
    u.stack = t.stack → u.sp = t.sp →
    ∃ v, exec .ret u = .next v ∧ v.pc = s.pc ∧ v.sp = s.sp ∧
      ∀ j : Nat, j < s.sp.val → v.stack[j]? = s.stack[j]?

/-- JP V0, NNN goes to NNN + V0 (D8; log entry 4). -/
def Obligations.IndirectJumpAddsV0 : Prop :=
  ∀ (nnn : Addr12) (s : State),
    ∃ t, exec (.jpV0 nnn) s = .next t ∧ t.pc.toNat = nnn.toNat + (s.getV 0).toNat ∧
      OnlyChanges [.pc] s t

/-- The four comparing skips move pc past one more word, modulo 2^16, exactly when their comparison holds, and
otherwise write nothing; 5XYn and 9XYn with n ≠ 0 are decode errors. That a skip is of exactly one word
is the spec's general knowledge (R142; log entry 4). -/
def Obligations.ComparisonSkipsMovePcByTwo : Prop :=
  ∀ (x y : Reg) (nn : Byte) (s : State),
    (DecodesTo (0x3000 + 0x100 * x.val + nn.toNat) (.seImm x nn) ∧
      ∃ t, exec (.seImm x nn) s = .next t ∧ OnlyChanges [.pc] s t ∧
      t.pc.toNat = (if s.getV x = nn then (s.pc.toNat + 2) % 65536 else s.pc.toNat)) ∧
    (DecodesTo (0x4000 + 0x100 * x.val + nn.toNat) (.sneImm x nn) ∧
      ∃ t, exec (.sneImm x nn) s = .next t ∧ OnlyChanges [.pc] s t ∧
      t.pc.toNat = (if s.getV x = nn then s.pc.toNat else (s.pc.toNat + 2) % 65536)) ∧
    (DecodesTo (0x5000 + 0x100 * x.val + 0x10 * y.val) (.seReg x y) ∧
      ∃ t, exec (.seReg x y) s = .next t ∧ OnlyChanges [.pc] s t ∧
      t.pc.toNat = (if s.getV x = s.getV y then (s.pc.toNat + 2) % 65536 else s.pc.toNat)) ∧
    (∀ n, 0 < n → n < 16 → IllegalWord (0x5000 + 0x100 * x.val + 0x10 * y.val + n)) ∧
    (DecodesTo (0x9000 + 0x100 * x.val + 0x10 * y.val) (.sneReg x y) ∧
      ∃ t, exec (.sneReg x y) s = .next t ∧ OnlyChanges [.pc] s t ∧
      t.pc.toNat = (if s.getV x = s.getV y then s.pc.toNat else (s.pc.toNat + 2) % 65536)) ∧
    (∀ n, 0 < n → n < 16 → IllegalWord (0x9000 + 0x100 * x.val + 0x10 * y.val + n))

/-- SYS NNN, every 0x0 word but 00E0 and 00EE, records SysUnsupported of its word and changes nothing else (D4,
D24; log entry 1). -/
def Obligations.SysRecordsItsWordAsUnsupported : Prop :=
  ∀ (nnn : Addr12) (s : State),
    (nnn ≠ 0x0E0 → nnn ≠ 0x0EE → DecodesTo nnn.toNat (.sys nnn)) ∧
    ∃ t, exec (.sys nnn) s = .next t ∧
      t.fault = some (.sysUnsupported (BitVec.ofNat 16 nnn.toNat)) ∧ OnlyChanges [.fault] s t

/-! ### Memory (20_memory.md) and the index instructions (42_index_memory.md) -/

/-- MemRead and MemWrite check the unbounded address and touch one byte: bounds, then the font (D1, D2, D33),
any other address being RAM, below 0x200 too (D3);
a write that succeeds is what the next read of the address returns, and every other address reads as before. -/
def Obligations.MemoryAccessesAreCheckedAndLocal : Prop :=
  ∀ (s : State) (a : Nat) (b : Byte),
    (4096 ≤ a → memRead s a = .error (.memoryBounds a)) ∧
    (a < 4096 → memRead s a = .ok (s.byteAt a)) ∧
    (∀ c, WriteFaults a c → memWrite s a b = .error c) ∧
    ((∀ c, ¬ WriteFaults a c) → ∃ t, memWrite s a b = .ok t ∧ memRead t a = .ok b ∧
      BytesKeptBut a 1 s t ∧ OnlyChanges [.mem] s t)

/-- Two canonical memories that read the same at every address are the same data (the model's own form,
log entry 6). -/
def Obligations.CanonicalMemoriesAreDeterminedByTheirBytes : Prop :=
  ∀ (p : Config.Params) (m n : Memory), m.wf p → n.wf p → (∀ a, m.read p a = n.read p a) → m = n

/-- LD I, NNN loads the address, at most 0xFFF. -/
def Obligations.LoadIndexSetsI : Prop :=
  ∀ (nnn : Addr12) (s : State),
    DecodesTo (0xA000 + nnn.toNat) (.ldI nnn) ∧
    ∃ t, exec (.ldI nnn) s = .next t ∧ t.index.toNat = nnn.toNat ∧ t.index.toNat ≤ 0xFFF ∧
      OnlyChanges [.index] s t

/-- ADD I, VX wraps modulo 2^16 and writes no flag (D7). LD F, VX gives the glyph's address under either
FONT_INDEX_MODE; for a digit both modes give a glyph inside the font (D12). -/
def Obligations.IndexAddWrapsAndGlyphLookupAddressesTheFont : Prop :=
  ∀ (x : Reg) (s : State),
    (∃ t, exec (.addIVx x) s = .next t ∧
      t.index.toNat = (s.index.toNat + (s.getV x).toNat) % 65536 ∧ OnlyChanges [.index] s t) ∧
    (∃ t, exec (.ldFVx x) s = .next t ∧ OnlyChanges [.index] s t ∧
      (s.params.fontIndexMode = .full → t.index.toNat = 0x050 + (s.getV x).toNat * 5) ∧
      (s.params.fontIndexMode = .lowNibble → t.index.toNat = 0x050 + (s.getV x).toNat % 16 * 5) ∧
      ((s.getV x).toNat ≤ 15 →
        t.index.toNat = 0x050 + (s.getV x).toNat * 5 ∧ t.index.toNat + 4 ≤ 0x09F))

/-- LD B, VX where the three bytes may be written: the decimal digits, most significant first, I unchanged.
Where one may not: the first write that fails gives the fault, and the digits before it stay stored (D1,
D2, D24; log entry 1). A store below 0x200 outside the font rests on D3. -/
def Obligations.BcdStoresThreeDigits : Prop :=
  ∀ (x : Reg) (s : State),
    DecodesTo (0xF033 + 0x100 * x.val) (.ldBVx x) ∧
    (Writable s.index.toNat 3 →
      ∃ t, exec (.ldBVx x) s = .next t ∧
        (t.byteAt s.index.toNat).toNat = (s.getV x).toNat / 100 ∧
        (t.byteAt (s.index.toNat + 1)).toNat = (s.getV x).toNat / 10 % 10 ∧
        (t.byteAt (s.index.toNat + 2)).toNat = (s.getV x).toNat % 10 ∧
        BytesKeptBut s.index.toNat 3 s t ∧ OnlyChanges [.mem] s t) ∧
    (∀ k c, k < 3 → Writable s.index.toNat k → WriteFaults (s.index.toNat + k) c →
      ∃ t, exec (.ldBVx x) s = .next t ∧ t.fault = some c ∧
        (0 < k → (t.byteAt s.index.toNat).toNat = (s.getV x).toNat / 100) ∧
        (1 < k → (t.byteAt (s.index.toNat + 1)).toNat = (s.getV x).toNat / 10 % 10) ∧
        BytesKeptBut s.index.toNat k s t ∧ OnlyChanges [.mem, .fault] s t)

/-- LD [I], VX where the X + 1 bytes may be written: V0..VX in order, and I past them. Where one may not: the
first write that fails gives the fault, the registers before it stay stored and I is not advanced (D1, D2, D24; log entry 1). A
store below 0x200 outside the font rests on D3. -/
def Obligations.BlockStoreWritesRegistersInOrder : Prop :=
  ∀ (x : Reg) (s : State),
    DecodesTo (0xF055 + 0x100 * x.val) (.ldMemVx x) ∧
    (Writable s.index.toNat (x.val + 1) →
      ∃ t, exec (.ldMemVx x) s = .next t ∧
        (∀ r : Reg, r ≤ x → t.byteAt (s.index.toNat + r.val) = s.getV r) ∧
        t.index.toNat = (s.index.toNat + x.val + 1) % 65536 ∧
        BytesKeptBut s.index.toNat (x.val + 1) s t ∧ OnlyChanges [.mem, .index] s t) ∧
    (∀ k c, k ≤ x.val → Writable s.index.toNat k → WriteFaults (s.index.toNat + k) c →
      ∃ t, exec (.ldMemVx x) s = .next t ∧ t.fault = some c ∧
        (∀ r : Reg, r.val < k → t.byteAt (s.index.toNat + r.val) = s.getV r) ∧
        BytesKeptBut s.index.toNat k s t ∧ OnlyChanges [.mem, .fault] s t)

/-- LD VX, [I] where the X + 1 bytes lie in memory: V0..VX in order, VF too when X = 15, and I past them. Where
one does not: the first read that fails gives MemoryBounds, the registers before it stay loaded and I is not
advanced (D1, D24, D33; log entry 1). -/
def Obligations.BlockLoadReadsRegistersInOrder : Prop :=
  ∀ (x : Reg) (s : State),
    DecodesTo (0xF065 + 0x100 * x.val) (.ldVxMem x) ∧
    (s.index.toNat + x.val < 4096 →
      ∃ t, exec (.ldVxMem x) s = .next t ∧
        (∀ r : Reg, t.getV r = if r ≤ x then s.byteAt (s.index.toNat + r.val) else s.getV r) ∧
        t.index.toNat = (s.index.toNat + x.val + 1) % 65536 ∧ OnlyChanges [.regs, .index] s t) ∧
    (∀ k, k ≤ x.val → (∀ j, j < k → s.index.toNat + j < 4096) → 4096 ≤ s.index.toNat + k →
      ∃ t, exec (.ldVxMem x) s = .next t ∧ t.fault = some (.memoryBounds (s.index.toNat + k)) ∧
        (∀ r : Reg, t.getV r = if r.val < k then s.byteAt (s.index.toNat + r.val) else s.getV r) ∧
        OnlyChanges [.regs, .fault] s t)

/-- What a block store wrote, a block load from the same address reads back, in any state with the same
memory. A store below 0x200 outside the font rests on D3. -/
def Obligations.BlockLoadReadsBackBlockStore : Prop :=
  ∀ (x : Reg) (s t u : State), Writable s.index.toNat (x.val + 1) → exec (.ldMemVx x) s = .next t →
    u.index = s.index → (∀ a, u.byteAt a = t.byteAt a) →
    ∃ v, exec (.ldVxMem x) u = .next v ∧ ∀ r : Reg, r ≤ x → v.getV r = s.getV r

/-- A store to the word about to be fetched is seen by the very next fetch (R61, derived there). A store below 0x200
outside the font rests on D3. -/
def Obligations.NextFetchSeesTheStoredWord : Prop :=
  ∀ (x a b : Reg) (s t : State), Writable s.index.toNat (x.val + 1) → exec (.ldMemVx x) s = .next t →
    b ≤ x → b.val = a.val + 1 → s.pc.toNat = s.index.toNat + a.val →
    fetch t = .ok (wordOfBytes (s.getV a) (s.getV b))

/-! ### Display (43_display.md) -/

/-- CLS unlights every cell and writes nothing else, VF included. -/
def Obligations.ClearUnlightsEveryCell : Prop :=
  ∀ s : State,
    DecodesTo 0x00E0 .cls ∧
    ∃ t, exec .cls s = .next t ∧ (∀ x y, t.disp.cell x y = false) ∧ OnlyChanges [.disp] s t

/-- DRW where every row can be read: each cell of the grid is inverted exactly where the sprite, anchored at
V[X] mod 64 and V[Y] mod 32 and clipped, has a 1-bit, and VF tells whether a lit cell went unlit; N = 0 draws
nothing and clears VF (D15). -/
def Obligations.DrawInvertsExactlyTheSpriteCells : Prop :=
  ∀ (x y : Reg) (n : Fin 16) (s : State), n.val = 0 ∨ s.index.toNat + n.val ≤ 4096 →
    ∃ t, exec (.drw x y n) s = .next t ∧
      (∀ cx cy, cx < 64 → cy < 32 →
        (t.disp.cell cx cy = true ↔
          ¬ (s.disp.cell cx cy = true ↔
            SpriteBit s ((s.getV x).toNat % 64) ((s.getV y).toNat % 32) n.val cx cy))) ∧
      (SpriteHits s ((s.getV x).toNat % 64) ((s.getV y).toNat % 32) n.val → t.getV 15 = 1) ∧
      (¬ SpriteHits s ((s.getV x).toNat % 64) ((s.getV y).toNat % 32) n.val → t.getV 15 = 0) ∧
      RegsKeptBut [15] s t ∧ OnlyChanges [.regs, .disp] s t

/-- DRW whose row `k` is the first that lies outside memory: the rows before it stay drawn, the fault is recorded
and VF is not written, even if row `k` would be clipped (D1, D16, D24; log entry 1). -/
def Obligations.DrawFaultKeepsTheRowsBefore : Prop :=
  ∀ (x y : Reg) (n : Fin 16) (s : State) (k : Nat), k < n.val →
    (∀ j, j < k → s.index.toNat + j < 4096) → 4096 ≤ s.index.toNat + k →
    ∃ t, exec (.drw x y n) s = .next t ∧ t.fault = some (.memoryBounds (s.index.toNat + k)) ∧
      (∀ cx cy, cx < 64 → cy < 32 →
        (t.disp.cell cx cy = true ↔
          ¬ (s.disp.cell cx cy = true ↔
            SpriteBit s ((s.getV x).toNat % 64) ((s.getV y).toNat % 32) k cx cy))) ∧
      OnlyChanges [.disp, .fault] s t

/-- Drawing the same sprite again at the same place restores the display, and the second draw sets VF to 1 iff some
cell that was unlit before the first lies under a 1-bit (on a clear display: iff the sprite has a visible 1-bit; log
entry 12; D15). The registers that name the place may differ. -/
def Obligations.DrawingTwiceRestoresTheDisplay : Prop :=
  ∀ (x y x' y' : Reg) (n : Fin 16) (s t : State), n.val = 0 ∨ s.index.toNat + n.val ≤ 4096 →
    exec (.drw x y n) s = .next t → t.getV x' = s.getV x → t.getV y' = s.getV y →
    ∃ u, exec (.drw x' y' n) t = .next u ∧ u.disp = s.disp ∧
      (u.getV 15 = 1 ↔ ∃ cx cy, cx < 64 ∧ cy < 32 ∧ s.disp.cell cx cy = false ∧
        SpriteBit s ((s.getV x).toNat % 64) ((s.getV y).toNat % 32) n.val cx cy)

/-- The display is written only by CLS, DRW and reset, and read by no instruction but DRW: any other instruction
does the same whatever the display holds. -/
def Obligations.OnlyClsDrwAndResetTouchTheDisplay : Prop :=
  (∀ (i : Instr) (s t : State), exec i s = .next t → i ≠ .cls → (∀ x y n, i ≠ .drw x y n) →
    t.disp = s.disp ∧ ∀ d : Display, exec i (s.setDisp d) = .next (t.setDisp d)) ∧
  (∀ (s : State) (d : Display), exec .cls (s.setDisp d) = exec .cls s) ∧
  (∀ s : State, (hostCall .step s).1.disp ≠ s.disp →
    ∃ w, fetch s = .ok w ∧ (decode w = .instr .cls ∨ ∃ x y n, decode w = .instr (.drw x y n))) ∧
  (∀ (c : HostCall) (s : State), c ≠ .step → c ≠ .reset → (hostCall c s).1.disp = s.disp) ∧
  (∀ s : State, ∀ x y, (hostCall .reset s).1.disp.cell x y = false)

/-- The display view is row-major, 64 by 32 cells, and reading it changes no state. -/
def Obligations.DisplayViewIsRowMajor : Prop :=
  ∀ s : State,
    hostCall .display s = (s, .display (displayView s)) ∧ (displayView s).length = 64 * 32 ∧
    ∀ x y, x < 64 → y < 32 → (displayView s)[y * 64 + x]? = some (s.disp.cell x y)

/-! ### Timers (44_timers.md, 60_exceptions.md) -/

/-- FX07 reads DT, FX15 writes DT, FX18 writes ST; each changes nothing else. A DT written 0 stays 0 at the next
tick, and an ST written 0 makes it report no sound. No instruction reads ST back: run with another ST, it ends in a
state that differs in ST at most. -/
def Obligations.TimerInstructionsCopy : Prop :=
  ∀ (x : Reg) (s : State),
    (DecodesTo (0xF007 + 0x100 * x.val) (.ldVxDt x) ∧
      ∃ t, exec (.ldVxDt x) s = .next t ∧ t.getV x = s.dt ∧
      RegsKeptBut [x] s t ∧ OnlyChanges [.regs] s t) ∧
    (DecodesTo (0xF015 + 0x100 * x.val) (.ldDtVx x) ∧
      ∃ t, exec (.ldDtVx x) s = .next t ∧ t.dt = s.getV x ∧ OnlyChanges [.dt] s t ∧
      (s.getV x = 0 → (tickTimers t).1.dt = 0)) ∧
    (DecodesTo (0xF018 + 0x100 * x.val) (.ldStVx x) ∧
      ∃ t, exec (.ldStVx x) s = .next t ∧ t.st = s.getV x ∧ OnlyChanges [.st] s t ∧
      (s.getV x = 0 → (tickTimers t).2 = false)) ∧
    (∀ (i : Instr) (t : State) (b : Byte), exec i s = .next t →
      ∃ u, exec i (s.setSt b) = .next u ∧ u.setSt t.st = t)

/-- A tick counts each timer down to 0 and no further, reports the sound exactly when ST was not 0, and writes
nothing else, in every mode (D27). -/
def Obligations.TickCountsDownAndSignalsSound : Prop :=
  ∀ s : State, ∃ t on, hostCall .tickTimers s = (t, .sound on) ∧
    t.dt.toNat = s.dt.toNat - 1 ∧ t.st.toNat = s.st.toNat - 1 ∧ (on = true ↔ s.st.toNat ≠ 0) ∧
    OnlyChanges [.dt, .st] s t

/-- No instruction but FX18 writes ST, and none reads it: whatever ST holds, FX18 gives the same state, and any other
instruction does the same to the rest of the state. -/
def Obligations.NoInstructionReadsTheSoundTimer : Prop :=
  (∀ (i : Instr) (s t : State) (b : Byte), exec i s = .next t → (∀ x, i ≠ .ldStVx x) →
    t.st = s.st ∧ exec i (s.setSt b) = .next (t.setSt b)) ∧
  (∀ (x : Reg) (s : State) (b : Byte), exec (.ldStVx x) (s.setSt b) = exec (.ldStVx x) s)

/-! ### Keys (45_input.md, 60_exceptions.md) -/

/-- SKP and SKNP with V[X] ≤ 15 skip exactly when the key is pressed, or not pressed; above 15 they record
KeyIndex and change nothing else (D14, D24; log entry 1). That a skip is of exactly one word is log entry 4. -/
def Obligations.KeySkipsTestTheLatch : Prop :=
  ∀ (x : Reg) (s : State),
    (∀ k : Key, (s.getV x).toNat = k.val →
      (∃ t, exec (.skp x) s = .next t ∧ OnlyChanges [.pc] s t ∧
        t.pc.toNat = (if s.key k = true then (s.pc.toNat + 2) % 65536 else s.pc.toNat)) ∧
      (∃ t, exec (.sknp x) s = .next t ∧ OnlyChanges [.pc] s t ∧
        t.pc.toNat = (if s.key k = true then s.pc.toNat else (s.pc.toNat + 2) % 65536))) ∧
    (15 < (s.getV x).toNat →
      (∃ t, exec (.skp x) s = .next t ∧ t.fault = some (.keyIndex (s.getV x)) ∧
        OnlyChanges [.fault] s t) ∧
      (∃ t, exec (.sknp x) s = .next t ∧ t.fault = some (.keyIndex (s.getV x)) ∧
        OnlyChanges [.fault] s t))

/-- FX0A with a key pressed stores the lowest one and completes (D19); with none pressed it rewinds pc, and the
whole step leaves the machine as it was and returns Repeated. -/
def Obligations.WaitForKeyStoresLowestOrRepeats : Prop :=
  (∀ (x : Reg) (s : State) (k : Key), s.key k = true → (∀ j : Key, j < k → s.key j = false) →
    ∃ t, exec (.ldVxK x) s = .next t ∧ (t.getV x).toNat = k.val ∧
      RegsKeptBut [x] s t ∧ OnlyChanges [.regs] s t) ∧
  (∀ (x : Reg) (s : State), (∀ k, s.key k = false) →
    ∃ t, exec (.ldVxK x) s = .next t ∧ t.pc = s.pc - 2 ∧ OnlyChanges [.pc] s t) ∧
  (∀ (x : Reg) (s : State) (w : Word), s.Running → fetch s = .ok w → decode w = .instr (.ldVxK x) →
    (∀ k, s.key k = false) → hostCall .step s = (s, .step .repeated))

/-- No instruction writes the keys, and SKP, SKNP and FX0A alone read them: any other instruction does the same
whatever is pressed. -/
def Obligations.OnlyKeyInstructionsReadTheKeys : Prop :=
  (∀ (i : Instr) (s t : State), exec i s = .next t → t.keys = s.keys) ∧
  (∀ (i : Instr) (s t : State) (k : Key) (b : Bool), exec i s = .next t →
    (∀ x, i ≠ .skp x ∧ i ≠ .sknp x ∧ i ≠ .ldVxK x) → exec i (s.setKey k b) = .next (t.setKey k b))

/-- press(k) sets the key. On a running machine whose next instruction is FX0A it stores the lowest pressed key,
completes the instruction, latches on `k` and returns true (D20); otherwise it does nothing more and returns
false (D21, D28, D30). -/
def Obligations.PressSatisfiesAWaitingKeyRead : Prop :=
  ∀ (s : State) (k : Key),
    (press k s).1.key k = true ∧ (∀ j, j ≠ k → (press k s).1.key j = s.key j) ∧
    (∀ (x : Reg) (w : Word) (m : Key), s.Running → fetch s = .ok w → decode w = .instr (.ldVxK x) →
      (m = k ∨ s.key m = true) → m ≤ k → (∀ j : Key, j < m → s.key j = false) →
      ∃ t, press k s = (t, true) ∧ (t.getV x).toNat = m.val ∧ t.pc = s.pc + 2 ∧
        t.latched = true ∧ t.latchedKey = k ∧
        RegsKeptBut [x] s t ∧ OnlyChanges [.regs, .pc, .keys, .latched, .latchedKey] s t) ∧
    (¬ s.Running ∨ (∀ w x, fetch s = .ok w → decode w ≠ .instr (.ldVxK x)) →
      ∃ t, press k s = (t, false) ∧ OnlyChanges [.keys] s t)

/-- release(k) clears the key, and ends latched mode exactly when `k` is the latched key (D22). -/
def Obligations.ReleaseEndsTheLatchOfItsKey : Prop :=
  ∀ (s : State) (k : Key),
    (release k s).key k = false ∧ (∀ j, j ≠ k → (release k s).key j = s.key j) ∧
    ((release k s).latched = true ↔ s.latched = true ∧ k ≠ s.latchedKey) ∧
    OnlyChanges [.keys, .latched] s (release k s)

/-- A satisfied wait, end to end: after the press, whatever host calls follow in whatever order, as long as none
releases the latched key or resets the machine, the key stays pressed, steps are refused, and nothing changes but the
keys, the timers and memory (through load); steps alone change nothing at all. The release of that key then leaves a
machine that runs on after the FX0A (D20 to D23, D26, D27). -/
def Obligations.LatchedModeLastsUntilTheRelease : Prop :=
  ∀ (s t : State) (k : Key), s.Running → press k s = (t, true) →
    (∀ n, hostRun (List.replicate n .step) t = t) ∧
    ∀ cs : List HostCall, HostCall.release k ∉ cs → HostCall.reset ∉ cs →
      (hostRun cs t).latched = true ∧ (hostRun cs t).latchedKey = k ∧ (hostRun cs t).key k = true ∧
      OnlyChanges [.keys, .dt, .st, .mem] t (hostRun cs t) ∧
      hostCall .step (hostRun cs t) = (hostRun cs t, .step .latched) ∧
      (hostCall (.release k) (hostRun cs t)).1.Running ∧
      (hostCall (.release k) (hostRun cs t)).1.pc = s.pc + 2

/-! ### Reset and load (70_reset_and_hazards.md) -/

/-- Reset and construction leave every state element at the value R36 gathers, whatever the parameters. -/
def Obligations.ResetGivesEveryResetValue : Prop :=
  ∀ (p : Config.Params) (s : State), s = State.construct p ∨ (∃ u : State, s = (hostCall .reset u).1 ∧ u.params = p) →
    (∀ r, s.getV r = 0) ∧ s.index = 0 ∧ s.pc = 0x200 ∧ (∀ j : Fin 16, s.stack[j.val] = 0) ∧ s.sp = 0 ∧
    s.dt = 0 ∧ s.st = 0 ∧ (∀ k, s.key k = false) ∧ s.latched = false ∧ s.latchedKey = 0 ∧
    (∀ x y, s.disp.cell x y = false) ∧ s.fault = none ∧
    (∀ k : Fin 80, s.byteAt (0x050 + k.val) = p.font[k.val]) ∧
    (∀ a, a < 0x050 ∨ 0x09F < a → s.byteAt a = 0)

/-- load(bytes) of at most 3584 bytes copies them from 0x200 up and writes nothing else; a longer one returns
LoadCapacity and changes nothing, the fault record included (D25, D26). -/
def Obligations.LoadCopiesTheProgramOrReportsCapacity : Prop :=
  ∀ (s : State) (bytes : List Byte),
    (bytes.length ≤ 3584 →
      ∃ t, hostCall (.load bytes) s = (t, .load .ok) ∧
        (∀ j (h : j < bytes.length), t.byteAt (0x200 + j) = bytes[j]) ∧
        BytesKeptBut 0x200 bytes.length s t ∧ OnlyChanges [.mem] s t) ∧
    (3584 < bytes.length →
      hostCall (.load bytes) s = (s, .load (.loadCapacity bytes.length)))

/-- reset then load gives the state of a freshly constructed machine with the same program loaded, but for the
model's own count of draws (log entry 2). -/
def Obligations.ResetThenLoadEqualsAFreshLoad : Prop :=
  ∀ (s : State) (bytes : List Byte),
    ({ hostRun [.reset, .load bytes] s with draws := 0 } : State) =
      hostRun [.load bytes] (State.construct s.params)

/-! ### Invariants -/

/-- The invariant holds of a freshly constructed machine, whatever its parameters, and of the reset state. -/
def Obligations.InvariantHoldsAtReset : Prop :=
  State.reset.Inv ∧ ∀ p : Config.Params, (State.construct p).Inv

/-- Every step keeps the invariant: canonical memory, the font intact, the stack bound, the latched key held. -/
def Obligations.EveryStepKeepsTheInvariant : Prop :=
  ∀ s t : State, s.Inv → step s = .next t → t.Inv

/-- Every run of host calls, in any order, keeps the invariant and the machine's parameters, so no program and no
host ever changes the font. -/
def Obligations.EveryHostRunKeepsTheInvariant : Prop :=
  ∀ (cs : List HostCall) (s : State), s.Inv →
    (hostRun cs s).Inv ∧ (hostRun cs s).params = s.params
end

