-- ==== Sys2Proof/Laws/Decode.lean ====
section
/-! SUPPORT. The fields of a word as quotients and remainders of its value, and the fields of the words the encoder builds. -/

namespace Sys2Proof

/-! ### Fields as arithmetic (R81) -/

theorem opField_toNat (w : Word) : (opField w).toNat = w.toNat / 4096 := by
  have := w.isLt
  simp [opField, BitVec.extractLsb'_toNat, Nat.shiftRight_eq_div_pow]; omega

theorem xField_val (w : Word) : (xField w).val = w.toNat / 256 % 16 := by
  show (w.extractLsb' 8 4).toNat = _
  simp [BitVec.extractLsb'_toNat, Nat.shiftRight_eq_div_pow]

theorem yField_val (w : Word) : (yField w).val = w.toNat / 16 % 16 := by
  show (w.extractLsb' 4 4).toNat = _
  simp [BitVec.extractLsb'_toNat, Nat.shiftRight_eq_div_pow]

theorem nField_toNat (w : Word) : (nField w).toNat = w.toNat % 16 := by
  simp [nField, BitVec.extractLsb'_toNat]

theorem nnField_toNat (w : Word) : (nnField w).toNat = w.toNat % 256 := by
  simp [nnField, BitVec.extractLsb'_toNat]

theorem nnnField_toNat (w : Word) : (nnnField w).toNat = w.toNat % 4096 := by
  simp [nnnField, BitVec.extractLsb'_toNat]

theorem wordOfBytes_toNat (hi lo : Byte) : (wordOfBytes hi lo).toNat = 256 * hi.toNat + lo.toNat := by
  have := lo.isLt
  rw [wordOfBytes, BitVec.toNat_append, ← Nat.shiftLeft_add_eq_or_of_lt lo.isLt, Nat.shiftLeft_eq]
  omega

/-- A word is its two bytes. -/
theorem wordOfBytes_bytes (w : Word) : wordOfBytes (highByte w) (lowByte w) = w := by
  apply BitVec.eq_of_toNat_eq
  have := w.isLt
  rw [wordOfBytes_toNat]
  simp [highByte, lowByte, BitVec.extractLsb'_toNat, Nat.shiftRight_eq_div_pow]; omega

/-! ### The words of the formats (R83) -/

theorem formNNN_toNat (op : BitVec 4) (nnn : Addr12) :
    (formNNN op nnn).toNat = op.toNat * 4096 + nnn.toNat := by
  rw [formNNN, BitVec.toNat_append, ← Nat.shiftLeft_add_eq_or_of_lt nnn.isLt, Nat.shiftLeft_eq]

theorem formXNN_toNat (op : BitVec 4) (x : Reg) (nn : Byte) :
    (formXNN op x nn).toNat = op.toNat * 4096 + x.val * 256 + nn.toNat := by
  have := (BitVec.ofFin (w := 4) x).isLt
  rw [formXNN, BitVec.toNat_append, BitVec.toNat_append, ← Nat.shiftLeft_add_eq_or_of_lt nn.isLt,
    ← Nat.shiftLeft_add_eq_or_of_lt this, Nat.shiftLeft_eq, Nat.shiftLeft_eq]
  simp only [BitVec.toNat_ofFin]; omega

theorem formXYN_toNat (op : BitVec 4) (x y : Reg) (n : BitVec 4) :
    (formXYN op x y n).toNat = op.toNat * 4096 + x.val * 256 + y.val * 16 + n.toNat := by
  have hx := (BitVec.ofFin (w := 4) x).isLt
  have hy := (BitVec.ofFin (w := 4) y).isLt
  rw [formXYN, BitVec.toNat_append, BitVec.toNat_append, BitVec.toNat_append,
    ← Nat.shiftLeft_add_eq_or_of_lt n.isLt, ← Nat.shiftLeft_add_eq_or_of_lt hy,
    ← Nat.shiftLeft_add_eq_or_of_lt hx, Nat.shiftLeft_eq, Nat.shiftLeft_eq, Nat.shiftLeft_eq]
  simp only [BitVec.toNat_ofFin]; omega

@[simp] theorem opField_formNNN (op : BitVec 4) (nnn : Addr12) : opField (formNNN op nnn) = op := by
  apply BitVec.eq_of_toNat_eq; rw [opField_toNat, formNNN_toNat]; have := nnn.isLt; omega

@[simp] theorem nnnField_formNNN (op : BitVec 4) (nnn : Addr12) : nnnField (formNNN op nnn) = nnn := by
  apply BitVec.eq_of_toNat_eq; rw [nnnField_toNat, formNNN_toNat]; have := nnn.isLt; omega

@[simp] theorem opField_formXNN (op : BitVec 4) (x : Reg) (nn : Byte) : opField (formXNN op x nn) = op := by
  apply BitVec.eq_of_toNat_eq; rw [opField_toNat, formXNN_toNat]; have := nn.isLt; have := x.isLt; omega

@[simp] theorem xField_formXNN (op : BitVec 4) (x : Reg) (nn : Byte) : xField (formXNN op x nn) = x := by
  apply Fin.ext; rw [xField_val, formXNN_toNat]; have := nn.isLt; have := x.isLt; omega

@[simp] theorem nnField_formXNN (op : BitVec 4) (x : Reg) (nn : Byte) : nnField (formXNN op x nn) = nn := by
  apply BitVec.eq_of_toNat_eq; rw [nnField_toNat, formXNN_toNat]; have := nn.isLt; have := x.isLt; omega

@[simp] theorem opField_formXYN (op : BitVec 4) (x y : Reg) (n : BitVec 4) : opField (formXYN op x y n) = op := by
  apply BitVec.eq_of_toNat_eq; rw [opField_toNat, formXYN_toNat]
  have := n.isLt; have := x.isLt; have := y.isLt; omega

@[simp] theorem xField_formXYN (op : BitVec 4) (x y : Reg) (n : BitVec 4) : xField (formXYN op x y n) = x := by
  apply Fin.ext; rw [xField_val, formXYN_toNat]
  have := n.isLt; have := x.isLt; have := y.isLt; omega

@[simp] theorem yField_formXYN (op : BitVec 4) (x y : Reg) (n : BitVec 4) : yField (formXYN op x y n) = y := by
  apply Fin.ext; rw [yField_val, formXYN_toNat]
  have := n.isLt; have := x.isLt; have := y.isLt; omega

@[simp] theorem nField_formXYN (op : BitVec 4) (x y : Reg) (n : BitVec 4) : nField (formXYN op x y n) = n := by
  apply BitVec.eq_of_toNat_eq; rw [nField_toNat, formXYN_toNat]
  have := n.isLt; have := x.isLt; have := y.isLt; omega

/-- DecodeError names the word it was made from (R84). -/
theorem decodeError_word {w w' : Word} (h : decode w = .decodeError w') : w' = w := by
  unfold decode decode0 decode8 decodeE decodeF at h
  repeat' split at h
  all_goals first | exact (Decoded.decodeError.inj h).symm | cases h

end Sys2Proof
end

