-- ==== Sys2Proof/Laws/State.lean ====
section
/-! SUPPORT. What each update of the state leaves in each field, in each register, in each byte of memory and in each key. -/

namespace Sys2Proof.Machine.State

variable (s : State)

/-! ### setV -/

@[simp] theorem setV_v (r : Reg) (b : Byte) : (s.setV r b).v = s.v.set r.val b := rfl
@[simp] theorem setV_index (r : Reg) (b : Byte) : (s.setV r b).index = s.index := rfl
@[simp] theorem setV_pc (r : Reg) (b : Byte) : (s.setV r b).pc = s.pc := rfl
@[simp] theorem setV_stack (r : Reg) (b : Byte) : (s.setV r b).stack = s.stack := rfl
@[simp] theorem setV_sp (r : Reg) (b : Byte) : (s.setV r b).sp = s.sp := rfl
@[simp] theorem setV_dt (r : Reg) (b : Byte) : (s.setV r b).dt = s.dt := rfl
@[simp] theorem setV_st (r : Reg) (b : Byte) : (s.setV r b).st = s.st := rfl
@[simp] theorem setV_keys (r : Reg) (b : Byte) : (s.setV r b).keys = s.keys := rfl
@[simp] theorem setV_latched (r : Reg) (b : Byte) : (s.setV r b).latched = s.latched := rfl
@[simp] theorem setV_latchedKey (r : Reg) (b : Byte) : (s.setV r b).latchedKey = s.latchedKey := rfl
@[simp] theorem setV_disp (r : Reg) (b : Byte) : (s.setV r b).disp = s.disp := rfl
@[simp] theorem setV_mem (r : Reg) (b : Byte) : (s.setV r b).mem = s.mem := rfl
@[simp] theorem setV_fault (r : Reg) (b : Byte) : (s.setV r b).fault = s.fault := rfl
@[simp] theorem setV_draws (r : Reg) (b : Byte) : (s.setV r b).draws = s.draws := rfl
@[simp] theorem setV_params (r : Reg) (b : Byte) : (s.setV r b).params = s.params := rfl
@[simp] theorem setV_byteAt (r : Reg) (b : Byte) (a : Nat) : (s.setV r b).byteAt a = s.byteAt a := rfl
@[simp] theorem setV_key (r : Reg) (b : Byte) (j : Key) : (s.setV r b).key j = s.key j := rfl

/-! ### setIndex -/

@[simp] theorem setIndex_v (w : Word) : (s.setIndex w).v = s.v := rfl
@[simp] theorem setIndex_index (w : Word) : (s.setIndex w).index = w := rfl
@[simp] theorem setIndex_pc (w : Word) : (s.setIndex w).pc = s.pc := rfl
@[simp] theorem setIndex_stack (w : Word) : (s.setIndex w).stack = s.stack := rfl
@[simp] theorem setIndex_sp (w : Word) : (s.setIndex w).sp = s.sp := rfl
@[simp] theorem setIndex_dt (w : Word) : (s.setIndex w).dt = s.dt := rfl
@[simp] theorem setIndex_st (w : Word) : (s.setIndex w).st = s.st := rfl
@[simp] theorem setIndex_keys (w : Word) : (s.setIndex w).keys = s.keys := rfl
@[simp] theorem setIndex_latched (w : Word) : (s.setIndex w).latched = s.latched := rfl
@[simp] theorem setIndex_latchedKey (w : Word) : (s.setIndex w).latchedKey = s.latchedKey := rfl
@[simp] theorem setIndex_disp (w : Word) : (s.setIndex w).disp = s.disp := rfl
@[simp] theorem setIndex_mem (w : Word) : (s.setIndex w).mem = s.mem := rfl
@[simp] theorem setIndex_fault (w : Word) : (s.setIndex w).fault = s.fault := rfl
@[simp] theorem setIndex_draws (w : Word) : (s.setIndex w).draws = s.draws := rfl
@[simp] theorem setIndex_params (w : Word) : (s.setIndex w).params = s.params := rfl
@[simp] theorem setIndex_getV (w : Word) (r : Reg) : (s.setIndex w).getV r = s.getV r := rfl
@[simp] theorem setIndex_byteAt (w : Word) (a : Nat) : (s.setIndex w).byteAt a = s.byteAt a := rfl
@[simp] theorem setIndex_key (w : Word) (j : Key) : (s.setIndex w).key j = s.key j := rfl

/-! ### setPc -/

@[simp] theorem setPc_v (w : Word) : (s.setPc w).v = s.v := rfl
@[simp] theorem setPc_index (w : Word) : (s.setPc w).index = s.index := rfl
@[simp] theorem setPc_pc (w : Word) : (s.setPc w).pc = w := rfl
@[simp] theorem setPc_stack (w : Word) : (s.setPc w).stack = s.stack := rfl
@[simp] theorem setPc_sp (w : Word) : (s.setPc w).sp = s.sp := rfl
@[simp] theorem setPc_dt (w : Word) : (s.setPc w).dt = s.dt := rfl
@[simp] theorem setPc_st (w : Word) : (s.setPc w).st = s.st := rfl
@[simp] theorem setPc_keys (w : Word) : (s.setPc w).keys = s.keys := rfl
@[simp] theorem setPc_latched (w : Word) : (s.setPc w).latched = s.latched := rfl
@[simp] theorem setPc_latchedKey (w : Word) : (s.setPc w).latchedKey = s.latchedKey := rfl
@[simp] theorem setPc_disp (w : Word) : (s.setPc w).disp = s.disp := rfl
@[simp] theorem setPc_mem (w : Word) : (s.setPc w).mem = s.mem := rfl
@[simp] theorem setPc_fault (w : Word) : (s.setPc w).fault = s.fault := rfl
@[simp] theorem setPc_draws (w : Word) : (s.setPc w).draws = s.draws := rfl
@[simp] theorem setPc_params (w : Word) : (s.setPc w).params = s.params := rfl
@[simp] theorem setPc_getV (w : Word) (r : Reg) : (s.setPc w).getV r = s.getV r := rfl
@[simp] theorem setPc_byteAt (w : Word) (a : Nat) : (s.setPc w).byteAt a = s.byteAt a := rfl
@[simp] theorem setPc_key (w : Word) (j : Key) : (s.setPc w).key j = s.key j := rfl

/-! ### advancePc -/

@[simp] theorem advancePc_v : s.advancePc.v = s.v := rfl
@[simp] theorem advancePc_index : s.advancePc.index = s.index := rfl
@[simp] theorem advancePc_pc : s.advancePc.pc = s.pc + 2 := rfl
@[simp] theorem advancePc_stack : s.advancePc.stack = s.stack := rfl
@[simp] theorem advancePc_sp : s.advancePc.sp = s.sp := rfl
@[simp] theorem advancePc_dt : s.advancePc.dt = s.dt := rfl
@[simp] theorem advancePc_st : s.advancePc.st = s.st := rfl
@[simp] theorem advancePc_keys : s.advancePc.keys = s.keys := rfl
@[simp] theorem advancePc_latched : s.advancePc.latched = s.latched := rfl
@[simp] theorem advancePc_latchedKey : s.advancePc.latchedKey = s.latchedKey := rfl
@[simp] theorem advancePc_disp : s.advancePc.disp = s.disp := rfl
@[simp] theorem advancePc_mem : s.advancePc.mem = s.mem := rfl
@[simp] theorem advancePc_fault : s.advancePc.fault = s.fault := rfl
@[simp] theorem advancePc_draws : s.advancePc.draws = s.draws := rfl
@[simp] theorem advancePc_params : s.advancePc.params = s.params := rfl
@[simp] theorem advancePc_getV (r : Reg) : s.advancePc.getV r = s.getV r := rfl
@[simp] theorem advancePc_byteAt (a : Nat) : s.advancePc.byteAt a = s.byteAt a := rfl
@[simp] theorem advancePc_key (j : Key) : s.advancePc.key j = s.key j := rfl

/-! ### rewindPc -/

@[simp] theorem rewindPc_v : s.rewindPc.v = s.v := rfl
@[simp] theorem rewindPc_index : s.rewindPc.index = s.index := rfl
@[simp] theorem rewindPc_pc : s.rewindPc.pc = s.pc - 2 := rfl
@[simp] theorem rewindPc_stack : s.rewindPc.stack = s.stack := rfl
@[simp] theorem rewindPc_sp : s.rewindPc.sp = s.sp := rfl
@[simp] theorem rewindPc_dt : s.rewindPc.dt = s.dt := rfl
@[simp] theorem rewindPc_st : s.rewindPc.st = s.st := rfl
@[simp] theorem rewindPc_keys : s.rewindPc.keys = s.keys := rfl
@[simp] theorem rewindPc_latched : s.rewindPc.latched = s.latched := rfl
@[simp] theorem rewindPc_latchedKey : s.rewindPc.latchedKey = s.latchedKey := rfl
@[simp] theorem rewindPc_disp : s.rewindPc.disp = s.disp := rfl
@[simp] theorem rewindPc_mem : s.rewindPc.mem = s.mem := rfl
@[simp] theorem rewindPc_fault : s.rewindPc.fault = s.fault := rfl
@[simp] theorem rewindPc_draws : s.rewindPc.draws = s.draws := rfl
@[simp] theorem rewindPc_params : s.rewindPc.params = s.params := rfl
@[simp] theorem rewindPc_getV (r : Reg) : s.rewindPc.getV r = s.getV r := rfl
@[simp] theorem rewindPc_byteAt (a : Nat) : s.rewindPc.byteAt a = s.byteAt a := rfl
@[simp] theorem rewindPc_key (j : Key) : s.rewindPc.key j = s.key j := rfl

/-! ### setDt -/

@[simp] theorem setDt_v (b : Byte) : (s.setDt b).v = s.v := rfl
@[simp] theorem setDt_index (b : Byte) : (s.setDt b).index = s.index := rfl
@[simp] theorem setDt_pc (b : Byte) : (s.setDt b).pc = s.pc := rfl
@[simp] theorem setDt_stack (b : Byte) : (s.setDt b).stack = s.stack := rfl
@[simp] theorem setDt_sp (b : Byte) : (s.setDt b).sp = s.sp := rfl
@[simp] theorem setDt_dt (b : Byte) : (s.setDt b).dt = b := rfl
@[simp] theorem setDt_st (b : Byte) : (s.setDt b).st = s.st := rfl
@[simp] theorem setDt_keys (b : Byte) : (s.setDt b).keys = s.keys := rfl
@[simp] theorem setDt_latched (b : Byte) : (s.setDt b).latched = s.latched := rfl
@[simp] theorem setDt_latchedKey (b : Byte) : (s.setDt b).latchedKey = s.latchedKey := rfl
@[simp] theorem setDt_disp (b : Byte) : (s.setDt b).disp = s.disp := rfl
@[simp] theorem setDt_mem (b : Byte) : (s.setDt b).mem = s.mem := rfl
@[simp] theorem setDt_fault (b : Byte) : (s.setDt b).fault = s.fault := rfl
@[simp] theorem setDt_draws (b : Byte) : (s.setDt b).draws = s.draws := rfl
@[simp] theorem setDt_params (b : Byte) : (s.setDt b).params = s.params := rfl
@[simp] theorem setDt_getV (b : Byte) (r : Reg) : (s.setDt b).getV r = s.getV r := rfl
@[simp] theorem setDt_byteAt (b : Byte) (a : Nat) : (s.setDt b).byteAt a = s.byteAt a := rfl
@[simp] theorem setDt_key (b : Byte) (j : Key) : (s.setDt b).key j = s.key j := rfl

/-! ### setSt -/

@[simp] theorem setSt_v (b : Byte) : (s.setSt b).v = s.v := rfl
@[simp] theorem setSt_index (b : Byte) : (s.setSt b).index = s.index := rfl
@[simp] theorem setSt_pc (b : Byte) : (s.setSt b).pc = s.pc := rfl
@[simp] theorem setSt_stack (b : Byte) : (s.setSt b).stack = s.stack := rfl
@[simp] theorem setSt_sp (b : Byte) : (s.setSt b).sp = s.sp := rfl
@[simp] theorem setSt_dt (b : Byte) : (s.setSt b).dt = s.dt := rfl
@[simp] theorem setSt_st (b : Byte) : (s.setSt b).st = b := rfl
@[simp] theorem setSt_keys (b : Byte) : (s.setSt b).keys = s.keys := rfl
@[simp] theorem setSt_latched (b : Byte) : (s.setSt b).latched = s.latched := rfl
@[simp] theorem setSt_latchedKey (b : Byte) : (s.setSt b).latchedKey = s.latchedKey := rfl
@[simp] theorem setSt_disp (b : Byte) : (s.setSt b).disp = s.disp := rfl
@[simp] theorem setSt_mem (b : Byte) : (s.setSt b).mem = s.mem := rfl
@[simp] theorem setSt_fault (b : Byte) : (s.setSt b).fault = s.fault := rfl
@[simp] theorem setSt_draws (b : Byte) : (s.setSt b).draws = s.draws := rfl
@[simp] theorem setSt_params (b : Byte) : (s.setSt b).params = s.params := rfl
@[simp] theorem setSt_getV (b : Byte) (r : Reg) : (s.setSt b).getV r = s.getV r := rfl
@[simp] theorem setSt_byteAt (b : Byte) (a : Nat) : (s.setSt b).byteAt a = s.byteAt a := rfl
@[simp] theorem setSt_key (b : Byte) (j : Key) : (s.setSt b).key j = s.key j := rfl

/-! ### setDisp -/

@[simp] theorem setDisp_v (d : Display) : (s.setDisp d).v = s.v := rfl
@[simp] theorem setDisp_index (d : Display) : (s.setDisp d).index = s.index := rfl
@[simp] theorem setDisp_pc (d : Display) : (s.setDisp d).pc = s.pc := rfl
@[simp] theorem setDisp_stack (d : Display) : (s.setDisp d).stack = s.stack := rfl
@[simp] theorem setDisp_sp (d : Display) : (s.setDisp d).sp = s.sp := rfl
@[simp] theorem setDisp_dt (d : Display) : (s.setDisp d).dt = s.dt := rfl
@[simp] theorem setDisp_st (d : Display) : (s.setDisp d).st = s.st := rfl
@[simp] theorem setDisp_keys (d : Display) : (s.setDisp d).keys = s.keys := rfl
@[simp] theorem setDisp_latched (d : Display) : (s.setDisp d).latched = s.latched := rfl
@[simp] theorem setDisp_latchedKey (d : Display) : (s.setDisp d).latchedKey = s.latchedKey := rfl
@[simp] theorem setDisp_disp (d : Display) : (s.setDisp d).disp = d := rfl
@[simp] theorem setDisp_mem (d : Display) : (s.setDisp d).mem = s.mem := rfl
@[simp] theorem setDisp_fault (d : Display) : (s.setDisp d).fault = s.fault := rfl
@[simp] theorem setDisp_draws (d : Display) : (s.setDisp d).draws = s.draws := rfl
@[simp] theorem setDisp_params (d : Display) : (s.setDisp d).params = s.params := rfl
@[simp] theorem setDisp_getV (d : Display) (r : Reg) : (s.setDisp d).getV r = s.getV r := rfl
@[simp] theorem setDisp_byteAt (d : Display) (a : Nat) : (s.setDisp d).byteAt a = s.byteAt a := rfl
@[simp] theorem setDisp_key (d : Display) (j : Key) : (s.setDisp d).key j = s.key j := rfl

/-! ### setMem -/

@[simp] theorem setMem_v (m : Memory) : (s.setMem m).v = s.v := rfl
@[simp] theorem setMem_index (m : Memory) : (s.setMem m).index = s.index := rfl
@[simp] theorem setMem_pc (m : Memory) : (s.setMem m).pc = s.pc := rfl
@[simp] theorem setMem_stack (m : Memory) : (s.setMem m).stack = s.stack := rfl
@[simp] theorem setMem_sp (m : Memory) : (s.setMem m).sp = s.sp := rfl
@[simp] theorem setMem_dt (m : Memory) : (s.setMem m).dt = s.dt := rfl
@[simp] theorem setMem_st (m : Memory) : (s.setMem m).st = s.st := rfl
@[simp] theorem setMem_keys (m : Memory) : (s.setMem m).keys = s.keys := rfl
@[simp] theorem setMem_latched (m : Memory) : (s.setMem m).latched = s.latched := rfl
@[simp] theorem setMem_latchedKey (m : Memory) : (s.setMem m).latchedKey = s.latchedKey := rfl
@[simp] theorem setMem_disp (m : Memory) : (s.setMem m).disp = s.disp := rfl
@[simp] theorem setMem_mem (m : Memory) : (s.setMem m).mem = m := rfl
@[simp] theorem setMem_fault (m : Memory) : (s.setMem m).fault = s.fault := rfl
@[simp] theorem setMem_draws (m : Memory) : (s.setMem m).draws = s.draws := rfl
@[simp] theorem setMem_params (m : Memory) : (s.setMem m).params = s.params := rfl
@[simp] theorem setMem_getV (m : Memory) (r : Reg) : (s.setMem m).getV r = s.getV r := rfl
@[simp] theorem setMem_key (m : Memory) (j : Key) : (s.setMem m).key j = s.key j := rfl

/-! ### countDraw -/

@[simp] theorem countDraw_v : s.countDraw.v = s.v := rfl
@[simp] theorem countDraw_index : s.countDraw.index = s.index := rfl
@[simp] theorem countDraw_pc : s.countDraw.pc = s.pc := rfl
@[simp] theorem countDraw_stack : s.countDraw.stack = s.stack := rfl
@[simp] theorem countDraw_sp : s.countDraw.sp = s.sp := rfl
@[simp] theorem countDraw_dt : s.countDraw.dt = s.dt := rfl
@[simp] theorem countDraw_st : s.countDraw.st = s.st := rfl
@[simp] theorem countDraw_keys : s.countDraw.keys = s.keys := rfl
@[simp] theorem countDraw_latched : s.countDraw.latched = s.latched := rfl
@[simp] theorem countDraw_latchedKey : s.countDraw.latchedKey = s.latchedKey := rfl
@[simp] theorem countDraw_disp : s.countDraw.disp = s.disp := rfl
@[simp] theorem countDraw_mem : s.countDraw.mem = s.mem := rfl
@[simp] theorem countDraw_fault : s.countDraw.fault = s.fault := rfl
@[simp] theorem countDraw_draws : s.countDraw.draws = s.draws + 1 := rfl
@[simp] theorem countDraw_params : s.countDraw.params = s.params := rfl
@[simp] theorem countDraw_getV (r : Reg) : s.countDraw.getV r = s.getV r := rfl
@[simp] theorem countDraw_byteAt (a : Nat) : s.countDraw.byteAt a = s.byteAt a := rfl
@[simp] theorem countDraw_key (j : Key) : s.countDraw.key j = s.key j := rfl

/-! ### recordFault -/

@[simp] theorem recordFault_v (c : Fault) : (s.recordFault c).v = s.v := rfl
@[simp] theorem recordFault_index (c : Fault) : (s.recordFault c).index = s.index := rfl
@[simp] theorem recordFault_pc (c : Fault) : (s.recordFault c).pc = s.pc := rfl
@[simp] theorem recordFault_stack (c : Fault) : (s.recordFault c).stack = s.stack := rfl
@[simp] theorem recordFault_sp (c : Fault) : (s.recordFault c).sp = s.sp := rfl
@[simp] theorem recordFault_dt (c : Fault) : (s.recordFault c).dt = s.dt := rfl
@[simp] theorem recordFault_st (c : Fault) : (s.recordFault c).st = s.st := rfl
@[simp] theorem recordFault_keys (c : Fault) : (s.recordFault c).keys = s.keys := rfl
@[simp] theorem recordFault_latched (c : Fault) : (s.recordFault c).latched = s.latched := rfl
@[simp] theorem recordFault_latchedKey (c : Fault) : (s.recordFault c).latchedKey = s.latchedKey := rfl
@[simp] theorem recordFault_disp (c : Fault) : (s.recordFault c).disp = s.disp := rfl
@[simp] theorem recordFault_mem (c : Fault) : (s.recordFault c).mem = s.mem := rfl
@[simp] theorem recordFault_fault (c : Fault) : (s.recordFault c).fault = some c := rfl
@[simp] theorem recordFault_draws (c : Fault) : (s.recordFault c).draws = s.draws := rfl
@[simp] theorem recordFault_params (c : Fault) : (s.recordFault c).params = s.params := rfl
@[simp] theorem recordFault_getV (c : Fault) (r : Reg) : (s.recordFault c).getV r = s.getV r := rfl
@[simp] theorem recordFault_byteAt (c : Fault) (a : Nat) : (s.recordFault c).byteAt a = s.byteAt a := rfl
@[simp] theorem recordFault_key (c : Fault) (j : Key) : (s.recordFault c).key j = s.key j := rfl

/-! ### setKey -/

@[simp] theorem setKey_v (k : Key) (b : Bool) : (s.setKey k b).v = s.v := rfl
@[simp] theorem setKey_index (k : Key) (b : Bool) : (s.setKey k b).index = s.index := rfl
@[simp] theorem setKey_pc (k : Key) (b : Bool) : (s.setKey k b).pc = s.pc := rfl
@[simp] theorem setKey_stack (k : Key) (b : Bool) : (s.setKey k b).stack = s.stack := rfl
@[simp] theorem setKey_sp (k : Key) (b : Bool) : (s.setKey k b).sp = s.sp := rfl
@[simp] theorem setKey_dt (k : Key) (b : Bool) : (s.setKey k b).dt = s.dt := rfl
@[simp] theorem setKey_st (k : Key) (b : Bool) : (s.setKey k b).st = s.st := rfl
@[simp] theorem setKey_keys (k : Key) (b : Bool) : (s.setKey k b).keys = s.keys.set k.val b := rfl
@[simp] theorem setKey_latched (k : Key) (b : Bool) : (s.setKey k b).latched = s.latched := rfl
@[simp] theorem setKey_latchedKey (k : Key) (b : Bool) : (s.setKey k b).latchedKey = s.latchedKey := rfl
@[simp] theorem setKey_disp (k : Key) (b : Bool) : (s.setKey k b).disp = s.disp := rfl
@[simp] theorem setKey_mem (k : Key) (b : Bool) : (s.setKey k b).mem = s.mem := rfl
@[simp] theorem setKey_fault (k : Key) (b : Bool) : (s.setKey k b).fault = s.fault := rfl
@[simp] theorem setKey_draws (k : Key) (b : Bool) : (s.setKey k b).draws = s.draws := rfl
@[simp] theorem setKey_params (k : Key) (b : Bool) : (s.setKey k b).params = s.params := rfl
@[simp] theorem setKey_getV (k : Key) (b : Bool) (r : Reg) : (s.setKey k b).getV r = s.getV r := rfl
@[simp] theorem setKey_byteAt (k : Key) (b : Bool) (a : Nat) : (s.setKey k b).byteAt a = s.byteAt a := rfl

/-! ### latch -/

@[simp] theorem latch_v (k : Key) : (s.latch k).v = s.v := rfl
@[simp] theorem latch_index (k : Key) : (s.latch k).index = s.index := rfl
@[simp] theorem latch_pc (k : Key) : (s.latch k).pc = s.pc := rfl
@[simp] theorem latch_stack (k : Key) : (s.latch k).stack = s.stack := rfl
@[simp] theorem latch_sp (k : Key) : (s.latch k).sp = s.sp := rfl
@[simp] theorem latch_dt (k : Key) : (s.latch k).dt = s.dt := rfl
@[simp] theorem latch_st (k : Key) : (s.latch k).st = s.st := rfl
@[simp] theorem latch_keys (k : Key) : (s.latch k).keys = s.keys := rfl
@[simp] theorem latch_latched (k : Key) : (s.latch k).latched = true := rfl
@[simp] theorem latch_latchedKey (k : Key) : (s.latch k).latchedKey = k := rfl
@[simp] theorem latch_disp (k : Key) : (s.latch k).disp = s.disp := rfl
@[simp] theorem latch_mem (k : Key) : (s.latch k).mem = s.mem := rfl
@[simp] theorem latch_fault (k : Key) : (s.latch k).fault = s.fault := rfl
@[simp] theorem latch_draws (k : Key) : (s.latch k).draws = s.draws := rfl
@[simp] theorem latch_params (k : Key) : (s.latch k).params = s.params := rfl
@[simp] theorem latch_getV (k : Key) (r : Reg) : (s.latch k).getV r = s.getV r := rfl
@[simp] theorem latch_byteAt (k : Key) (a : Nat) : (s.latch k).byteAt a = s.byteAt a := rfl
@[simp] theorem latch_key (k : Key) (j : Key) : (s.latch k).key j = s.key j := rfl

/-! ### unlatch -/

@[simp] theorem unlatch_v : s.unlatch.v = s.v := rfl
@[simp] theorem unlatch_index : s.unlatch.index = s.index := rfl
@[simp] theorem unlatch_pc : s.unlatch.pc = s.pc := rfl
@[simp] theorem unlatch_stack : s.unlatch.stack = s.stack := rfl
@[simp] theorem unlatch_sp : s.unlatch.sp = s.sp := rfl
@[simp] theorem unlatch_dt : s.unlatch.dt = s.dt := rfl
@[simp] theorem unlatch_st : s.unlatch.st = s.st := rfl
@[simp] theorem unlatch_keys : s.unlatch.keys = s.keys := rfl
@[simp] theorem unlatch_latched : s.unlatch.latched = false := rfl
@[simp] theorem unlatch_latchedKey : s.unlatch.latchedKey = s.latchedKey := rfl
@[simp] theorem unlatch_disp : s.unlatch.disp = s.disp := rfl
@[simp] theorem unlatch_mem : s.unlatch.mem = s.mem := rfl
@[simp] theorem unlatch_fault : s.unlatch.fault = s.fault := rfl
@[simp] theorem unlatch_draws : s.unlatch.draws = s.draws := rfl
@[simp] theorem unlatch_params : s.unlatch.params = s.params := rfl
@[simp] theorem unlatch_getV (r : Reg) : s.unlatch.getV r = s.getV r := rfl
@[simp] theorem unlatch_byteAt (a : Nat) : s.unlatch.byteAt a = s.byteAt a := rfl
@[simp] theorem unlatch_key (j : Key) : s.unlatch.key j = s.key j := rfl

/-! ### Reading back -/

@[simp] theorem getV_setV (r x : Reg) (b : Byte) : (s.setV x b).getV r = if r = x then b else s.getV r := by
  unfold getV setV
  rw [Vector.getElem_set]
  simp only [Fin.ext_iff, eq_comm]

@[simp] theorem key_setKey (k j : Key) (b : Bool) : (s.setKey k b).key j = if j = k then b else s.key j := by
  unfold key setKey
  rw [Vector.getElem_set]
  simp only [Fin.ext_iff, eq_comm]

@[simp] theorem setMem_byteAt (m : Memory) (a : Nat) : (s.setMem m).byteAt a = m.read s.params a := rfl

theorem byteAt_eq (a : Nat) : s.byteAt a = s.mem.read s.params a := rfl

@[simp] theorem setPc_pc_self : s.setPc s.pc = s := rfl

@[simp] theorem skipIf_true : s.skipIf true = s.advancePc := rfl

@[simp] theorem skipIf_false : s.skipIf false = s := rfl

/-- A result and a flag: the flag in VF, the result in its register unless that is VF (R102). -/
@[simp] theorem getV_setResultFlag (r x : Reg) (b : Byte) (f : Bool) :
    (s.setResultFlag x b f).getV r = if r = vF then flagByte f else if r = x then b else s.getV r := by
  simp [setResultFlag]

end Sys2Proof.Machine.State
end

