-- ==== Sys2Proof/Laws/Memory.lean ====
section
/-! SUPPORT. Memory: a read after a write, the canonical form kept by every operation, and memories that read alike. -/

namespace Sys2Proof.Machine.Memory

variable (p : Config.Params) (m : Memory) (a : Nat) (v : Byte)

theorem lookup_insert (b : Nat) : (m.insert a v).lookup b = if b = a then some v else m.lookup b := by
  induction m with
  | nil => simp [Memory.insert, lookup]
  | cons c m ih => obtain ⟨k, w⟩ := c; simp only [Memory.insert]; split_ifs <;> simp_all [lookup]

theorem lookup_erase (b : Nat) : (m.erase a).lookup b = if b = a then none else m.lookup b := by
  induction m with
  | nil => simp [Memory.erase, lookup]
  | cons c m ih => obtain ⟨k, w⟩ := c; simp only [Memory.erase]; split_ifs <;> simp_all [lookup]

/-- A read after a write: the value written at its address, every other address as before. -/
@[simp] theorem read_write (b : Nat) : (m.write p a v).read p b = if b = a then v else m.read p b := by
  unfold write read
  split_ifs with hv hb hb <;> simp_all [lookup_insert, lookup_erase]

/-- After writing a list of bytes: the bytes in their range, every other address as before. -/
theorem read_writeAll (bs : List Byte) (b : Nat) :
    (m.writeAll p a bs).read p b =
      if h : a ≤ b ∧ b < a + bs.length then bs[b - a] else m.read p b := by
  induction bs generalizing m a with
  | nil => simp [writeAll]
  | cons c bs ih =>
    rw [writeAll, ih, read_write]
    by_cases h₁ : a + 1 ≤ b ∧ b < a + 1 + bs.length
    · obtain ⟨k, rfl⟩ : ∃ k, b = a + 1 + k := ⟨b - (a + 1), by omega⟩
      have : a ≤ a + 1 + k ∧ a + 1 + k < a + (c :: bs).length := by simp; omega
      rw [dif_pos h₁, dif_pos this]
      have e : a + 1 + k - a = k + 1 := by omega
      simp [e]
    · rw [dif_neg h₁]
      by_cases h₂ : b = a
      · subst h₂
        have : b ≤ b ∧ b < b + (c :: bs).length := by simp
        rw [if_pos rfl, dif_pos this]; simp
      · rw [if_neg h₂, dif_neg]; simp; omega

theorem mem_insert (c : Host.Cell) (h : c ∈ m.insert a v) : c = (a, v) ∨ c ∈ m := by
  induction m with
  | nil => simpa [Memory.insert] using h
  | cons d m ih =>
    obtain ⟨k, w⟩ := d
    simp only [Memory.insert] at h
    split_ifs at h <;> simp only [List.mem_cons] at h ⊢ <;> grind

theorem mem_erase (c : Host.Cell) (h : c ∈ m.erase a) : c ∈ m := by
  induction m with
  | nil => simp [Memory.erase] at h
  | cons d m ih =>
    obtain ⟨k, w⟩ := d
    simp only [Memory.erase] at h
    split_ifs at h <;> simp only [List.mem_cons] at h ⊢ <;> grind

theorem pairwise_insert (h : m.Pairwise fun c d => c.1 < d.1) :
    (m.insert a v).Pairwise fun c d => c.1 < d.1 := by
  induction m with
  | nil => simp [Memory.insert]
  | cons d m ih =>
    obtain ⟨k, w⟩ := d
    rw [List.pairwise_cons] at h
    have hin := mem_insert m a v
    simp only [Memory.insert]
    split_ifs with h₁ h₂
    · simp only [List.pairwise_cons, List.mem_cons]; grind
    · simp only [List.pairwise_cons]; grind
    · simp only [List.pairwise_cons]; grind

theorem pairwise_erase (h : m.Pairwise fun c d => c.1 < d.1) :
    (m.erase a).Pairwise fun c d => c.1 < d.1 := by
  induction m with
  | nil => simp [Memory.erase]
  | cons d m ih =>
    obtain ⟨k, w⟩ := d
    rw [List.pairwise_cons] at h
    have hin := mem_erase m a
    simp only [Memory.erase]
    split_ifs
    · exact ih h.2
    · simp only [List.pairwise_cons]; grind

/-- Writing keeps the canonical form. -/
theorem wf_write (ha : a < Config.memSize) (h : m.wf p) : (m.write p a v).wf p := by
  unfold write
  split_ifs with hv
  · exact ⟨pairwise_erase m a h.1, fun c hc => h.2 c (mem_erase m a c hc)⟩
  · refine ⟨pairwise_insert m a v h.1, fun c hc => ?_⟩
    rcases mem_insert m a v c hc with rfl | hc
    · exact ⟨ha, hv⟩
    · exact h.2 c hc

theorem wf_writeAll (bs : List Byte) (ha : a + bs.length ≤ Config.memSize) (h : m.wf p) :
    (m.writeAll p a bs).wf p := by
  induction bs generalizing m a with
  | nil => exact h
  | cons c bs ih =>
    simp only [List.length_cons] at ha
    exact ih (m.write p a c) (a + 1) (by omega) (wf_write p m a c (by omega) h)

theorem wf_nil : Memory.wf p [] := ⟨List.Pairwise.nil, by simp⟩

theorem read_nil : Memory.read p [] a = resetByte p a := rfl

/-- The listed entries of a canonical memory are what `lookup` finds. -/
theorem lookup_eq_some (h : m.Pairwise fun c d => c.1 < d.1) : m.lookup a = some v ↔ (a, v) ∈ m := by
  induction m with
  | nil => simp [lookup]
  | cons d m ih =>
    obtain ⟨k, w⟩ := d
    rw [List.pairwise_cons] at h
    simp only [lookup, List.mem_cons, Prod.mk.injEq]
    split_ifs <;> grind

/-- An address is listed exactly when it reads as something other than its reset contents. -/
theorem mem_iff_read (h : m.wf p) : (a, v) ∈ m ↔ m.read p a = v ∧ v ≠ resetByte p a := by
  rw [← lookup_eq_some m a v h.1]
  unfold read
  constructor
  · intro e
    exact ⟨by simp [e], (h.2 (a, v) ((lookup_eq_some m a v h.1).1 e)).2⟩
  · rintro ⟨e, ne⟩
    cases hl : m.lookup a with
    | none => simp [hl] at e; exact absurd e.symm ne
    | some w => simpa [hl] using e

end Sys2Proof.Machine.Memory

namespace Sys2Proof.Machine

theorem resetByte_font (p : Config.Params) (k : Fin 80) :
    resetByte p (Config.fontBase + k.val) = p.font[k.val] := by
  have := k.isLt
  unfold resetByte
  rw [if_pos ⟨by omega, by simp only [Config.fontBase, Config.fontLast]; omega⟩]
  simp [k.isLt]

theorem resetByte_zero (p : Config.Params) (a : Nat) (h : a < Config.fontBase ∨ Config.fontLast < a) :
    resetByte p a = 0 := by
  unfold resetByte
  rw [if_neg]; omega

end Sys2Proof.Machine
end

