-- ==== Sys2Proof/Laws/Ops.lean ====
section
/-! SUPPORT. One lemma for each shared operation that says everything it can do: single accesses, the store and load sequences, the fetch, the call stack, the key operand and the lowest key. -/

namespace Sys2Proof.Machine

open Config

/-! ### Ending an instruction -/

theorem raise_eq (c : Fault) (s : State) : raise c s = .next (s.recordFault c) := rfl

@[simp] theorem finish_done (k : State → State) (s : State) : (Progress.done s).finish k = .next (k s) := rfl

@[simp] theorem finish_raised (k : State → State) (c : Fault) (s : State) :
    (Progress.raised c s).finish k = .next (s.recordFault c) := rfl

/-! ### Single accesses (R53, R54) -/

theorem memRead_ok {s : State} {a : Nat} (h : a < memSize) : memRead s a = .ok (s.byteAt a) :=
  if_neg (Nat.not_le.2 h)

theorem memRead_error {s : State} {a : Nat} (h : memSize ≤ a) : memRead s a = .error (.memoryBounds a) :=
  if_pos h

/-- A write faults or lands, never both; which one depends on the address alone. -/
theorem memWrite_cases (s : State) (a : Nat) (b : Byte) :
    (∃ c, WriteFaults a c ∧ memWrite s a b = .error c) ∨
    ((∀ c, ¬ WriteFaults a c) ∧ memWrite s a b = .ok (s.setMem (s.mem.write s.params a b))) := by
  unfold memWrite inFont WriteFaults
  by_cases h₁ : memSize ≤ a
  · exact .inl ⟨.memoryBounds a, .inl ⟨h₁, rfl⟩, if_pos h₁⟩
  · rw [if_neg h₁]
    by_cases h₂ : fontBase ≤ a ∧ a ≤ fontLast
    · refine .inl ⟨.fontWrite a, .inr ⟨h₂.1, h₂.2, rfl⟩, if_pos ?_⟩
      simpa using h₂
    · refine .inr ⟨?_, if_neg ?_⟩
      · rintro c (⟨h, -⟩ | ⟨h, h', -⟩)
        · exact h₁ h
        · exact h₂ ⟨h, h'⟩
      · simpa using h₂

theorem writeFaults_unique {a : Nat} {c d : Fault} (hc : WriteFaults a c) (hd : WriteFaults a d) : c = d := by
  rcases hc with ⟨h, rfl⟩ | ⟨h, h', rfl⟩ <;> rcases hd with ⟨k, rfl⟩ | ⟨k, k', rfl⟩ <;> first | rfl | omega

theorem memWrite_ok {s : State} {a : Nat} (b : Byte) (h : ∀ c, ¬ WriteFaults a c) :
    memWrite s a b = .ok (s.setMem (s.mem.write s.params a b)) := by
  rcases memWrite_cases s a b with ⟨c, hc, -⟩ | ⟨-, e⟩
  · exact absurd hc (h c)
  · exact e

theorem memWrite_error {s : State} {a : Nat} {c : Fault} (b : Byte) (h : WriteFaults a c) :
    memWrite s a b = .error c := by
  rcases memWrite_cases s a b with ⟨d, hd, e⟩ | ⟨n, -⟩
  · rw [e, writeFaults_unique h hd]
  · exact absurd h (n c)

/-- A writable address lies in memory and outside the font. -/
theorem not_writeFaults {a : Nat} (h : ∀ c, ¬ WriteFaults a c) : a < memSize ∧ (a < fontBase ∨ fontLast < a) := by
  constructor
  · by_contra hn
    exact h _ (.inl ⟨Nat.not_lt.1 hn, rfl⟩)
  · by_contra hn
    simp only [fontBase, fontLast] at hn
    exact h _ (.inr ⟨by omega, by omega, rfl⟩)

/-! ### Store sequences (R153, R154) -/

/-- Either every address takes its byte, or the first that does not gives the fault and the bytes before it
are stored. -/
theorem storeBytes_cases (bs : List Byte) (a : Nat) (s : State) :
    (Writable a bs.length ∧ storeBytes bs a s = .done (s.setMem (s.mem.writeAll s.params a bs))) ∨
    ∃ k c, k < bs.length ∧ Writable a k ∧ WriteFaults (a + k) c ∧
      storeBytes bs a s = .raised c (s.setMem (s.mem.writeAll s.params a (bs.take k))) := by
  induction bs generalizing a s with
  | nil => exact .inl ⟨by simp [Writable], rfl⟩
  | cons b bs ih =>
    rcases memWrite_cases s a b with ⟨c, hc, e⟩ | ⟨hw, e⟩
    · exact .inr ⟨0, c, by simp, by simp [Writable], hc, by simp [storeBytes, e, Memory.writeAll]; rfl⟩
    · have step : ∀ n, Writable (a + 1) n → Writable a (n + 1) := by
        intro n h j hj
        match j with
        | 0 => exact hw
        | j + 1 =>
          have := h j (by omega)
          rwa [show a + 1 + j = a + (j + 1) by omega] at this
      rcases ih (a + 1) (s.setMem (s.mem.write s.params a b)) with ⟨h, e'⟩ | ⟨k, c, hk, h, hc, e'⟩
      · refine .inl ⟨step _ h, ?_⟩
        rw [storeBytes, e]; exact e'
      · refine .inr ⟨k + 1, c, by simpa using hk, step _ h, ?_, ?_⟩
        · rwa [show a + (k + 1) = a + 1 + k by omega]
        · rw [storeBytes, e]; exact e'

theorem storeBytes_done {bs : List Byte} {a : Nat} (s : State) (h : Writable a bs.length) :
    storeBytes bs a s = .done (s.setMem (s.mem.writeAll s.params a bs)) := by
  rcases storeBytes_cases bs a s with ⟨-, e⟩ | ⟨k, c, hk, -, hc, -⟩
  · exact e
  · exact absurd hc (h k hk c)

theorem storeBytes_raised {bs : List Byte} {a k : Nat} {c : Fault} (s : State) (hk : k < bs.length)
    (h : Writable a k) (hc : WriteFaults (a + k) c) :
    storeBytes bs a s = .raised c (s.setMem (s.mem.writeAll s.params a (bs.take k))) := by
  rcases storeBytes_cases bs a s with ⟨w, -⟩ | ⟨j, d, hj, h', hd, e⟩
  · exact absurd hc (w k hk c)
  · have : j = k := by
      rcases Nat.lt_trichotomy j k with hlt | rfl | hlt
      · exact absurd hd (h j hlt d)
      · rfl
      · exact absurd hc (h' k hlt c)
    subst this
    rw [e, writeFaults_unique hc hd]

/-! ### Load sequences (R155) -/

/-- The registers `rs` taken from memory, from address `a` up, with no check. -/
def State.loadedFrom : List Reg → Nat → State → State
  | [], _, s => s
  | r :: rs, a, s => State.loadedFrom rs (a + 1) (s.setV r (s.byteAt a))

/-- A load writes registers only. -/
theorem loadedFrom_eq (rs : List Reg) (a : Nat) (s : State) :
    State.loadedFrom rs a s = { s with v := (State.loadedFrom rs a s).v } := by
  induction rs generalizing a s with
  | nil => rfl
  | cons r rs ih =>
    rw [State.loadedFrom, ih]
    rfl

theorem loadedFrom_byteAt (rs : List Reg) (a : Nat) (s : State) (b : Nat) :
    (State.loadedFrom rs a s).byteAt b = s.byteAt b := by
  rw [loadedFrom_eq]; rfl

theorem loadedFrom_getV_of_not_mem {rs : List Reg} (a : Nat) (s : State) {r : Reg} (h : r ∉ rs) :
    (State.loadedFrom rs a s).getV r = s.getV r := by
  induction rs generalizing a s with
  | nil => rfl
  | cons x rs ih =>
    simp only [List.mem_cons, not_or] at h
    rw [State.loadedFrom, ih _ _ h.2, State.getV_setV, if_neg h.1]

/-- The register at place `j` of the list gets the byte at `a + j`. -/
theorem loadedFrom_getV {rs : List Reg} (hn : rs.Nodup) (a : Nat) (s : State) (j : Nat) (hj : j < rs.length) :
    (State.loadedFrom rs a s).getV rs[j] = s.byteAt (a + j) := by
  induction rs generalizing a s j with
  | nil => simp at hj
  | cons x rs ih =>
    rw [List.nodup_cons] at hn
    rw [State.loadedFrom]
    match j with
    | 0 => simp [loadedFrom_getV_of_not_mem _ _ hn.1]
    | j + 1 =>
      simp only [List.getElem_cons_succ]
      rw [ih hn.2 _ _ _ (by simpa using hj)]
      simp [show a + 1 + j = a + (j + 1) by omega]

/-- Either every address lies in memory, or the first that does not gives MemoryBounds and the registers before
it are loaded. -/
theorem loadRegs_cases (rs : List Reg) (a : Nat) (s : State) :
    ((∀ j, j < rs.length → a + j < memSize) ∧ loadRegs rs a s = .done (State.loadedFrom rs a s)) ∨
    ∃ k, k < rs.length ∧ (∀ j, j < k → a + j < memSize) ∧ memSize ≤ a + k ∧
      loadRegs rs a s = .raised (.memoryBounds (a + k)) (State.loadedFrom (rs.take k) a s) := by
  induction rs generalizing a s with
  | nil => exact .inl ⟨by simp, rfl⟩
  | cons r rs ih =>
    by_cases h : a < memSize
    · have step : ∀ n, (∀ j, j < n → a + 1 + j < memSize) → ∀ j, j < n + 1 → a + j < memSize := by
        intro n hn j hj
        match j with
        | 0 => exact h
        | j + 1 => have := hn j (by omega); omega
      rcases ih (a + 1) (s.setV r (s.byteAt a)) with ⟨h', e⟩ | ⟨k, hk, h', hb, e⟩
      · refine .inl ⟨step _ h', ?_⟩
        rw [loadRegs, memRead_ok h]; exact e
      · refine .inr ⟨k + 1, by simpa using hk, step _ h', by omega, ?_⟩
        rw [loadRegs, memRead_ok h]
        rw [show a + (k + 1) = a + 1 + k by omega]; exact e
    · have h : memSize ≤ a := Nat.not_lt.1 h
      exact .inr ⟨0, by simp, by simp, h, by rw [loadRegs, memRead_error h]; rfl⟩

theorem loadRegs_done {rs : List Reg} {a : Nat} (s : State) (h : ∀ j, j < rs.length → a + j < memSize) :
    loadRegs rs a s = .done (State.loadedFrom rs a s) := by
  rcases loadRegs_cases rs a s with ⟨-, e⟩ | ⟨k, hk, -, hb, -⟩
  · exact e
  · exact absurd (h k hk) (Nat.not_lt.2 hb)

theorem loadRegs_raised {rs : List Reg} {a k : Nat} (s : State) (hk : k < rs.length)
    (h : ∀ j, j < k → a + j < memSize) (hb : memSize ≤ a + k) :
    loadRegs rs a s = .raised (.memoryBounds (a + k)) (State.loadedFrom (rs.take k) a s) := by
  rcases loadRegs_cases rs a s with ⟨h', -⟩ | ⟨j, hj, h', hb', e⟩
  · exact absurd (h' k hk) (Nat.not_lt.2 hb)
  · have : j = k := by
      rcases Nat.lt_trichotomy j k with hlt | rfl | hlt
      · exact absurd (h j hlt) (Nat.not_lt.2 hb')
      · rfl
      · exact absurd (h' k hlt) (Nat.not_lt.2 hb)
    subst this
    exact e

/-! ### The register block (R154, R155) -/

@[simp] theorem regBlock_length : ∀ x : Reg, (regBlock x).length = x.val + 1 := by decide

@[simp] theorem mem_regBlock : ∀ x r : Reg, r ∈ regBlock x ↔ r ≤ x := by decide

theorem regBlock_nodup : ∀ x : Reg, (regBlock x).Nodup := by decide

theorem regBlock_getElem? : ∀ x r : Reg, r ≤ x → (regBlock x)[r.val]? = some r := by decide

theorem mem_take_regBlock : ∀ (x r : Reg) (k : Fin 17), r ∈ (regBlock x).take k.val ↔ r ≤ x ∧ r.val < k.val := by
  decide +revert

/-! ### Fetch (R55) -/

theorem fetch_ok {s : State} (h : s.pc.toNat + 1 < memSize) :
    fetch s = .ok (wordOfBytes (s.byteAt s.pc.toNat) (s.byteAt (s.pc.toNat + 1))) := by
  unfold fetch
  rw [memRead_ok (Nat.lt_of_succ_lt h), memRead_ok h]

theorem fetch_error {s : State} (h : memSize ≤ s.pc.toNat + 1) :
    fetch s = .error (.memoryBounds (max s.pc.toNat 4096)) := by
  unfold fetch
  by_cases h' : memSize ≤ s.pc.toNat
  · rw [memRead_error h', Nat.max_eq_left h']
  · have e : s.pc.toNat + 1 = 4096 := by simp only [memSize] at h h'; omega
    rw [memRead_ok (Nat.not_le.1 h'), memRead_error h, e, Nat.max_eq_right (by omega)]

/-- A fetch reads memory and pc alone. -/
theorem fetch_congr {s t : State} (hp : t.pc = s.pc) (hb : ∀ a, t.byteAt a = s.byteAt a) : fetch t = fetch s := by
  unfold fetch memRead
  simp only [hp, hb]

/-! ### Call stack (R133, R136) -/

theorem call_next {s : State} (w : Word) (h : s.sp < s.params.stackUsable) :
    ∃ hs hb, s.call w = .next { s with
      stack := s.stack.set s.sp.val s.pc hs, sp := ⟨s.sp.val + 1, hb⟩, pc := w } := by
  have hn : ¬ s.params.stackUsable ≤ s.sp := Fin.not_le.2 h
  exact ⟨stack_free hn, Nat.succ_lt_succ (stack_free hn), dif_neg hn⟩

theorem call_full {s : State} (w : Word) (h : s.params.stackUsable ≤ s.sp) :
    s.call w = .next (s.recordFault .stackOverflow) := dif_pos h

theorem popPc_next {s : State} (h : s.sp ≠ 0) :
    ∃ hs hb, s.popPc = .next { s with sp := ⟨s.sp.val - 1, hb⟩, pc := s.stack[s.sp.val - 1]'hs } :=
  ⟨stack_top h, _, dif_neg h⟩

theorem popPc_empty {s : State} (h : s.sp = 0) : s.popPc = .next (s.recordFault .stackUnderflow) := dif_pos h

/-! ### Keys (R180 to R182) -/

theorem keyOperand_ok {b : Byte} (h : b.toNat < 16) : keyOperand b = .ok ⟨b.toNat, h⟩ := dif_pos h

theorem keyOperand_error {b : Byte} (h : 15 < b.toNat) : keyOperand b = .error (.keyIndex b) :=
  dif_neg (by omega)

theorem mem_allKeys : ∀ k : Key, k ∈ allKeys := by decide

theorem lowestKey_eq_none {s : State} : s.lowestKey = none ↔ ∀ k, s.key k = false := by
  unfold State.lowestKey
  rw [List.find?_eq_none]
  constructor
  · intro h k
    simpa using h k (mem_allKeys k)
  · intro h k _
    simp [h k]

/-- The lowest pressed key is pressed, and no lower one is. -/
theorem lowestKey_eq_some {s : State} {k : Key} :
    s.lowestKey = some k ↔ s.key k = true ∧ ∀ j : Key, j < k → s.key j = false := by
  unfold State.lowestKey
  constructor
  · intro h
    rw [List.find?_eq_some_iff_append] at h
    obtain ⟨hk, as, bs, e, hn⟩ := h
    refine ⟨hk, fun j hj => ?_⟩
    have hs : allKeys.Pairwise (· < ·) := by decide
    have hm := mem_allKeys j
    rw [e] at hm hs
    rcases List.mem_append.1 hm with hm | hm
    · simpa using hn j hm
    · exfalso
      rw [List.pairwise_append] at hs
      rcases List.mem_cons.1 hm with rfl | hm
      · exact lt_irrefl _ hj
      · exact lt_asymm hj ((List.pairwise_cons.1 hs.2.1).1 j hm)
  · rintro ⟨hk, hlt⟩
    cases e : allKeys.find? s.key with
    | none =>
      rw [List.find?_eq_none] at e
      exact absurd hk (e k (mem_allKeys k))
    | some m =>
      rw [List.find?_eq_some_iff_append] at e
      obtain ⟨hm, as, bs, e, hn⟩ := e
      have hk' := mem_allKeys k
      have hs : allKeys.Pairwise (· < ·) := by decide
      rw [e] at hk' hs
      rcases List.mem_append.1 hk' with h | h
      · have := hn k h
        simp [hk] at this
      · rcases List.mem_cons.1 h with rfl | h
        · rfl
        · have := hlt m ((List.pairwise_cons.1 (List.pairwise_append.1 hs).2.1).1 k h)
          simp [hm] at this

end Sys2Proof.Machine
end

