-- ==== Sys2Proof/Laws/Display.lean ====
section
/-! SUPPORT. The display: cells, and what a pixel, a row and a sequence of rows of a sprite do to each cell and to the collision. -/

namespace Sys2Proof.Machine

/-! ### Cells -/

theorem cell_eq (d : Display) {x y : Nat} (hx : x < 64) (hy : y < 32) : d.cell x y = d[y][x] := by
  simp [Display.cell, hx, hy]

theorem cell_outside (d : Display) {x y : Nat} (h : ¬ (x < 64 ∧ y < 32)) : d.cell x y = false := by
  unfold Display.cell
  by_cases hy : y < 32
  · have hx : ¬ x < 64 := fun hx => h ⟨hx, hy⟩
    simp [hy, hx]
  · simp [hy]

/-- A display is its cells. -/
theorem display_ext {d e : Display} (h : ∀ x y, x < 64 → y < 32 → d.cell x y = e.cell x y) : d = e := by
  ext y hy x hx
  have := h x y hx hy
  rwa [cell_eq d hx hy, cell_eq e hx hy] at this

theorem cell_clearDisplay (x y : Nat) : clearDisplay.cell x y = false := by
  by_cases h : x < 64 ∧ y < 32
  · rw [cell_eq _ h.1 h.2]; simp [clearDisplay]
  · exact cell_outside _ h

/-- Inverting a cell under a condition. -/
theorem xor_decide_iff (c : Bool) (P : Prop) [Decidable P] : (c ^^ decide P) = true ↔ ¬ (c = true ↔ P) := by
  cases c <;> by_cases h : P <;> simp [h]

/-! ### One pixel -/

theorem drawPixel_cell (c : Canvas) (x y a b : Nat) :
    (drawPixel c x y).disp.cell a b =
      (c.disp.cell a b ^^ decide (a = x ∧ b = y ∧ x < 64 ∧ y < 32)) := by
  unfold drawPixel
  split_ifs with h
  · by_cases hab : a < 64 ∧ b < 32
    · rw [cell_eq _ hab.1 hab.2, cell_eq _ hab.1 hab.2, Vector.getElem_set]
      by_cases hb : y = b
      · subst hb
        rw [if_pos rfl, Vector.getElem_set]
        by_cases ha : x = a
        · subst ha; simp [h.1, h.2]
        · simp [ha, Ne.symm ha]
      · simp [hb, Ne.symm hb]
    · have : ¬ (a = x ∧ b = y ∧ x < 64 ∧ y < 32) := by rintro ⟨rfl, rfl, h'⟩; exact hab h'
      rw [cell_outside _ hab, cell_outside _ hab, decide_eq_false this, Bool.xor_false]
  · have : ¬ (a = x ∧ b = y ∧ x < 64 ∧ y < 32) := fun h' => h h'.2.2
    rw [decide_eq_false this, Bool.xor_false]

theorem drawPixel_hit (c : Canvas) (x y : Nat) :
    (drawPixel c x y).hit = (c.hit || c.disp.cell x y) := by
  unfold drawPixel
  split_ifs with h
  · simp [cell_eq _ h.1 h.2]
  · simp [cell_outside _ h]

/-! ### One row: column `k` of the row is bit 7 − k (R161) -/

/-- The first `n` columns of a row drawn. -/
def drawCols (c : Canvas) (row : Byte) (ax y n : Nat) : Canvas :=
  (List.range n).foldl (fun c k => if row.getLsbD (7 - k) then drawPixel c (ax + k) y else c) c

theorem drawRow_eq (c : Canvas) (row : Byte) (ax y : Nat) : drawRow c row ax y = drawCols c row ax y 8 := rfl

theorem drawCols_succ (c : Canvas) (row : Byte) (ax y n : Nat) :
    drawCols c row ax y (n + 1) =
      if row.getLsbD (7 - n) then drawPixel (drawCols c row ax y n) (ax + n) y else drawCols c row ax y n := by
  simp only [drawCols, List.range_succ, List.foldl_append, List.foldl_cons, List.foldl_nil]

theorem drawCols_cell (c : Canvas) (row : Byte) (ax y n a b : Nat) :
    (drawCols c row ax y n).disp.cell a b =
      (c.disp.cell a b ^^
        decide (b = y ∧ y < 32 ∧ a < 64 ∧ ax ≤ a ∧ a < ax + n ∧ row.getLsbD (7 - (a - ax)) = true)) := by
  induction n with
  | zero =>
    have : ¬ (b = y ∧ y < 32 ∧ a < 64 ∧ ax ≤ a ∧ a < ax + 0 ∧ row.getLsbD (7 - (a - ax)) = true) := by omega
    simp only [this, decide_false, Bool.xor_false]
    rfl
  | succ n ih =>
    rw [drawCols_succ]
    by_cases ha : a = ax + n
    · subst ha
      have e : ax + n - ax = n := by omega
      have hold : ¬ (b = y ∧ y < 32 ∧ ax + n < 64 ∧ ax ≤ ax + n ∧ ax + n < ax + n ∧
          row.getLsbD (7 - (ax + n - ax)) = true) := by omega
      simp only [hold, decide_false, Bool.xor_false] at ih
      split_ifs with hbit
      · rw [drawPixel_cell, ih]
        congr 1
        rw [decide_eq_decide, e]
        constructor
        · rintro ⟨-, hb, h₁, h₂⟩; exact ⟨hb, h₂, h₁, by omega, by omega, hbit⟩
        · rintro ⟨hb, h₂, h₁, -⟩; exact ⟨rfl, hb, h₁, h₂⟩
      · rw [ih]
        have : ¬ (b = y ∧ y < 32 ∧ ax + n < 64 ∧ ax ≤ ax + n ∧ ax + n < ax + (n + 1) ∧
          row.getLsbD (7 - (ax + n - ax)) = true) := by
          rw [e]; rintro ⟨-, -, -, -, -, h⟩; exact hbit h
        simp only [this, decide_false, Bool.xor_false]
    · have same : (b = y ∧ y < 32 ∧ a < 64 ∧ ax ≤ a ∧ a < ax + (n + 1) ∧ row.getLsbD (7 - (a - ax)) = true) ↔
          (b = y ∧ y < 32 ∧ a < 64 ∧ ax ≤ a ∧ a < ax + n ∧ row.getLsbD (7 - (a - ax)) = true) := by
        constructor <;> rintro ⟨h₁, h₂, h₃, h₄, h₅, h₆⟩ <;> exact ⟨h₁, h₂, h₃, h₄, by omega, h₆⟩
      simp only [same]
      split_ifs
      · rw [drawPixel_cell, ih]
        simp [ha]
      · exact ih

theorem drawCols_hit (c : Canvas) (row : Byte) (ax y n : Nat) :
    (drawCols c row ax y n).hit = true ↔
      c.hit = true ∨ ∃ a, ax ≤ a ∧ a < ax + n ∧ row.getLsbD (7 - (a - ax)) = true ∧ c.disp.cell a y = true := by
  induction n with
  | zero =>
    constructor
    · exact .inl
    · rintro (h | ⟨a, h₁, h₂, -⟩)
      · exact h
      · omega
  | succ n ih =>
    rw [drawCols_succ]
    have fresh : (drawCols c row ax y n).disp.cell (ax + n) y = c.disp.cell (ax + n) y := by
      rw [drawCols_cell]
      have : ¬ (y = y ∧ y < 32 ∧ ax + n < 64 ∧ ax ≤ ax + n ∧ ax + n < ax + n ∧
        row.getLsbD (7 - (ax + n - ax)) = true) := by omega
      rw [decide_eq_false this, Bool.xor_false]
    have e : ax + n - ax = n := by omega
    have split : (∃ a, ax ≤ a ∧ a < ax + (n + 1) ∧ row.getLsbD (7 - (a - ax)) = true ∧ c.disp.cell a y = true) ↔
        (∃ a, ax ≤ a ∧ a < ax + n ∧ row.getLsbD (7 - (a - ax)) = true ∧ c.disp.cell a y = true) ∨
        (row.getLsbD (7 - n) = true ∧ c.disp.cell (ax + n) y = true) := by
      constructor
      · rintro ⟨a, h₁, h₂, h₃, h₄⟩
        by_cases ha : a = ax + n
        · subst ha; rw [e] at h₃; exact .inr ⟨h₃, h₄⟩
        · exact .inl ⟨a, h₁, by omega, h₃, h₄⟩
      · rintro (⟨a, h₁, h₂, h⟩ | ⟨h₃, h₄⟩)
        · exact ⟨a, h₁, by omega, h⟩
        · exact ⟨ax + n, by omega, by omega, by rwa [e], h₄⟩
    rw [split]
    split_ifs with hbit
    · rw [drawPixel_hit, Bool.or_eq_true, ih, fresh]
      simp only [hbit, true_and, or_assoc]
    · rw [ih]
      simp only [hbit, false_and, or_false, Bool.false_eq_true]

/-! ### Rows -/

/-- The rows `r`, `r + 1`, … of the sprite, `left` of them, drawn with no check. -/
def paintRows (s : State) (ax ay : Nat) : (left r : Nat) → Canvas → Canvas
  | 0, _, c => c
  | left + 1, r, c => paintRows s ax ay left (r + 1) (drawRow c (s.byteAt (s.indexAddr r)) ax (ay + r))

/-- Either every row's byte lies in memory, or the first that does not gives MemoryBounds and the rows before it
are drawn. -/
theorem drawRows_cases (s : State) (ax ay left r : Nat) (c : Canvas) :
    ((∀ j, j < left → s.indexAddr (r + j) < Config.memSize) ∧
      drawRows s ax ay left r c = (paintRows s ax ay left r c, none)) ∨
    ∃ k, k < left ∧ (∀ j, j < k → s.indexAddr (r + j) < Config.memSize) ∧
      Config.memSize ≤ s.indexAddr (r + k) ∧
      drawRows s ax ay left r c = (paintRows s ax ay k r c, some (.memoryBounds (s.indexAddr (r + k)))) := by
  induction left generalizing r c with
  | zero => exact .inl ⟨by simp, rfl⟩
  | succ left ih =>
    by_cases h : s.indexAddr r < Config.memSize
    · have step : ∀ n, (∀ j, j < n → s.indexAddr (r + 1 + j) < Config.memSize) →
          ∀ j, j < n + 1 → s.indexAddr (r + j) < Config.memSize := by
        intro n hn j hj
        match j with
        | 0 => exact h
        | j + 1 =>
          have := hn j (by omega)
          rwa [show r + 1 + j = r + (j + 1) by omega] at this
      rcases ih (r + 1) (drawRow c (s.byteAt (s.indexAddr r)) ax (ay + r)) with ⟨h', e⟩ | ⟨k, hk, h', hb, e⟩
      · refine .inl ⟨step _ h', ?_⟩
        rw [drawRows, memRead_ok h]; exact e
      · rw [show r + 1 + k = r + (k + 1) by omega] at hb e
        refine .inr ⟨k + 1, by omega, step _ h', hb, ?_⟩
        rw [drawRows, memRead_ok h]; exact e
    · have h : Config.memSize ≤ s.indexAddr r := Nat.not_lt.1 h
      exact .inr ⟨0, by omega, by simp, h, by rw [drawRows, memRead_error h]; rfl⟩

/-- Each cell under the rows is inverted exactly where they have a 1-bit. -/
theorem paintRows_cell (s : State) (ax ay left r : Nat) (c : Canvas) (a b : Nat) :
    ((paintRows s ax ay left r c).disp.cell a b = true ↔
      ¬ (c.disp.cell a b = true ↔
        (a < 64 ∧ b < 32 ∧ ax ≤ a ∧ a < ax + 8 ∧ ay + r ≤ b ∧ b < ay + r + left ∧
          (s.byteAt (s.indexAddr (b - ay))).getLsbD (7 - (a - ax)) = true))) := by
  induction left generalizing r c with
  | zero =>
    have : ¬ (a < 64 ∧ b < 32 ∧ ax ≤ a ∧ a < ax + 8 ∧ ay + r ≤ b ∧ b < ay + r + 0 ∧
      (s.byteAt (s.indexAddr (b - ay))).getLsbD (7 - (a - ax)) = true) := by omega
    simp only [paintRows, this, iff_false, not_not]
  | succ left ih =>
    rw [paintRows, ih, drawRow_eq, drawCols_cell]
    by_cases hb : b = ay + r
    · subst hb
      have e : ay + r - ay = r := by omega
      have h₁ : ¬ (a < 64 ∧ ay + r < 32 ∧ ax ≤ a ∧ a < ax + 8 ∧ ay + (r + 1) ≤ ay + r ∧
        ay + r < ay + (r + 1) + left ∧ (s.byteAt (s.indexAddr (ay + r - ay))).getLsbD (7 - (a - ax)) = true) := by
        omega
      have h₂ : (a < 64 ∧ ay + r < 32 ∧ ax ≤ a ∧ a < ax + 8 ∧ ay + r ≤ ay + r ∧ ay + r < ay + r + (left + 1) ∧
          (s.byteAt (s.indexAddr (ay + r - ay))).getLsbD (7 - (a - ax)) = true) ↔
          (ay + r = ay + r ∧ ay + r < 32 ∧ a < 64 ∧ ax ≤ a ∧ a < ax + 8 ∧
          (s.byteAt (s.indexAddr r)).getLsbD (7 - (a - ax)) = true) := by
        rw [e]
        constructor
        · rintro ⟨x₁, x₂, x₃, x₄, -, -, x₅⟩; exact ⟨rfl, x₂, x₁, x₃, x₄, x₅⟩
        · rintro ⟨-, x₂, x₁, x₃, x₄, x₅⟩; exact ⟨x₁, x₂, x₃, x₄, by omega, by omega, x₅⟩
      rw [h₂, iff_false_right h₁, not_not]
      exact xor_decide_iff _ _
    · have h₁ : ¬ (b = ay + r ∧ ay + r < 32 ∧ a < 64 ∧ ax ≤ a ∧ a < ax + 8 ∧
          (s.byteAt (s.indexAddr r)).getLsbD (7 - (a - ax)) = true) := fun h => hb h.1
      have h₂ : (a < 64 ∧ b < 32 ∧ ax ≤ a ∧ a < ax + 8 ∧ ay + (r + 1) ≤ b ∧ b < ay + (r + 1) + left ∧
          (s.byteAt (s.indexAddr (b - ay))).getLsbD (7 - (a - ax)) = true) ↔
          (a < 64 ∧ b < 32 ∧ ax ≤ a ∧ a < ax + 8 ∧ ay + r ≤ b ∧ b < ay + r + (left + 1) ∧
          (s.byteAt (s.indexAddr (b - ay))).getLsbD (7 - (a - ax)) = true) := by
        constructor <;> rintro ⟨x₁, x₂, x₃, x₄, x₅, x₆, x₇⟩ <;>
          exact ⟨x₁, x₂, x₃, x₄, by omega, by omega, x₇⟩
      simp only [h₁, h₂, decide_false, Bool.xor_false]

/-- The rows hit exactly when some cell that was lit lies under one of their 1-bits. -/
theorem paintRows_hit (s : State) (ax ay left r : Nat) (c : Canvas) :
    (paintRows s ax ay left r c).hit = true ↔
      c.hit = true ∨ ∃ a b, ax ≤ a ∧ a < ax + 8 ∧ ay + r ≤ b ∧ b < ay + r + left ∧
        (s.byteAt (s.indexAddr (b - ay))).getLsbD (7 - (a - ax)) = true ∧ c.disp.cell a b = true := by
  induction left generalizing r c with
  | zero =>
    constructor
    · exact .inl
    · rintro (h | ⟨a, b, -, -, h₁, h₂, -⟩)
      · exact h
      · omega
  | succ left ih =>
    rw [paintRows, ih, drawRow_eq, drawCols_hit, or_assoc]
    have later : ∀ a b, ay + (r + 1) ≤ b →
        (drawCols c (s.byteAt (s.indexAddr r)) ax (ay + r) 8).disp.cell a b = c.disp.cell a b := by
      intro a b hb
      rw [drawCols_cell]
      have : ¬ (b = ay + r ∧ ay + r < 32 ∧ a < 64 ∧ ax ≤ a ∧ a < ax + 8 ∧
        (s.byteAt (s.indexAddr r)).getLsbD (7 - (a - ax)) = true) := by omega
      simp only [this, decide_false, Bool.xor_false]
    refine or_congr Iff.rfl ⟨?_, ?_⟩
    · rintro (⟨a, h₁, h₂, h₃, h₄⟩ | ⟨a, b, h₁, h₂, h₃, h₄, h₅, h₆⟩)
      · exact ⟨a, ay + r, h₁, h₂, by omega, by omega, by rwa [show ay + r - ay = r by omega], h₄⟩
      · exact ⟨a, b, h₁, h₂, by omega, by omega, h₅, by rwa [later a b h₃] at h₆⟩
    · rintro ⟨a, b, h₁, h₂, h₃, h₄, h₅, h₆⟩
      by_cases hb : b = ay + r
      · subst hb
        exact .inl ⟨a, h₁, h₂, by rwa [show ay + r - ay = r by omega] at h₅, h₆⟩
      · exact .inr ⟨a, b, h₁, h₂, by omega, by omega, h₅, by rwa [later a b (by omega)]⟩

end Sys2Proof.Machine
end

