-- ==== Sys2Proof/Laws/Frame.lean ====
section
/-! SUPPORT. Frames: how they compose, and the frame of each update, sequence and stack operation. -/

namespace Sys2Proof.Machine

theorem kept_refl (s : State) (p : Part) : Kept s s p := by
  cases p <;> first | exact rfl | exact fun _ => rfl

theorem Kept.trans {s t u : State} {p : Part} (h : Kept s t p) (k : Kept t u p) : Kept s u p := by
  cases p <;> first
    | exact Eq.trans (α := _) k h
    | exact fun a => (k a).trans (h a)

namespace OnlyChanges

theorem refl (ps : List Part) (s : State) : OnlyChanges ps s s := fun p _ => kept_refl s p

theorem mono {ps qs : List Part} {s t : State} (h : OnlyChanges ps s t) (hs : ∀ p ∈ ps, p ∈ qs) :
    OnlyChanges qs s t := fun p hp => h p fun hq => hp (hs p hq)

theorem trans {ps : List Part} {s t u : State} (h : OnlyChanges ps s t) (k : OnlyChanges ps t u) :
    OnlyChanges ps s u := fun p hp => (h p hp).trans (k p hp)

/-- Two changes in a row, each with its own frame. -/
theorem append {ps qs : List Part} {s t u : State} (h : OnlyChanges ps s t) (k : OnlyChanges qs t u) :
    OnlyChanges (ps ++ qs) s u :=
  (h.mono fun _ hp => List.mem_append_left _ hp).trans (k.mono fun _ hp => List.mem_append_right _ hp)

end OnlyChanges

/-- The frame of one part: every other part is the same field of both states. -/
theorem onlyChanges_regs {s t : State} (h : t = { s with v := t.v }) : OnlyChanges [.regs] s t := by
  intro p hp
  rw [h]
  cases p <;> first | exact absurd (by decide) hp | exact rfl | exact fun _ => rfl

theorem setV_onlyChanges (s : State) (r : Reg) (b : Byte) : OnlyChanges [.regs] s (s.setV r b) :=
  onlyChanges_regs rfl

theorem setResultFlag_onlyChanges (s : State) (r : Reg) (b : Byte) (f : Bool) :
    OnlyChanges [.regs] s (s.setResultFlag r b f) := onlyChanges_regs rfl

theorem setIndex_onlyChanges (s : State) (w : Word) : OnlyChanges [.index] s (s.setIndex w) := by
  intro p hp; cases p <;> first | exact absurd (by decide) hp | exact rfl | exact fun _ => rfl

theorem setPc_onlyChanges (s : State) (w : Word) : OnlyChanges [.pc] s (s.setPc w) := by
  intro p hp; cases p <;> first | exact absurd (by decide) hp | exact rfl | exact fun _ => rfl

theorem advancePc_onlyChanges (s : State) : OnlyChanges [.pc] s s.advancePc := setPc_onlyChanges s _

theorem rewindPc_onlyChanges (s : State) : OnlyChanges [.pc] s s.rewindPc := setPc_onlyChanges s _

theorem skipIf_onlyChanges (s : State) (b : Bool) : OnlyChanges [.pc] s (s.skipIf b) := by
  cases b
  · exact .refl _ s
  · exact advancePc_onlyChanges s

theorem setDt_onlyChanges (s : State) (b : Byte) : OnlyChanges [.dt] s (s.setDt b) := by
  intro p hp; cases p <;> first | exact absurd (by decide) hp | exact rfl | exact fun _ => rfl

theorem setSt_onlyChanges (s : State) (b : Byte) : OnlyChanges [.st] s (s.setSt b) := by
  intro p hp; cases p <;> first | exact absurd (by decide) hp | exact rfl | exact fun _ => rfl

theorem setDisp_onlyChanges (s : State) (d : Display) : OnlyChanges [.disp] s (s.setDisp d) := by
  intro p hp; cases p <;> first | exact absurd (by decide) hp | exact rfl | exact fun _ => rfl

theorem setMem_onlyChanges (s : State) (m : Memory) : OnlyChanges [.mem] s (s.setMem m) := by
  intro p hp; cases p <;> first | exact absurd (by decide) hp | exact rfl | exact fun _ => rfl

theorem countDraw_onlyChanges (s : State) : OnlyChanges [.draws] s s.countDraw := by
  intro p hp; cases p <;> first | exact absurd (by decide) hp | exact rfl | exact fun _ => rfl

theorem recordFault_onlyChanges (s : State) (c : Fault) : OnlyChanges [.fault] s (s.recordFault c) := by
  intro p hp; cases p <;> first | exact absurd (by decide) hp | exact rfl | exact fun _ => rfl

theorem setKey_onlyChanges (s : State) (k : Key) (b : Bool) : OnlyChanges [.keys] s (s.setKey k b) := by
  intro p hp; cases p <;> first | exact absurd (by decide) hp | exact rfl | exact fun _ => rfl

theorem latch_onlyChanges (s : State) (k : Key) : OnlyChanges [.latched, .latchedKey] s (s.latch k) := by
  intro p hp; cases p <;> first | exact absurd (by decide) hp | exact rfl | exact fun _ => rfl

theorem unlatch_onlyChanges (s : State) : OnlyChanges [.latched] s s.unlatch := by
  intro p hp; cases p <;> first | exact absurd (by decide) hp | exact rfl | exact fun _ => rfl

theorem loadedFrom_onlyChanges (rs : List Reg) (a : Nat) (s : State) :
    OnlyChanges [.regs] s (State.loadedFrom rs a s) := onlyChanges_regs (loadedFrom_eq rs a s)

/-- A call changes the stack, sp and pc, or records a fault (R136). -/
theorem call_onlyChanges {s t : State} {w : Word} (h : s.call w = .next t) :
    OnlyChanges [.stack, .sp, .pc, .fault] s t := by
  by_cases hs : s.sp < s.params.stackUsable
  · obtain ⟨a, b, e⟩ := call_next w hs
    obtain rfl := Host.Outcome.next.inj (e.symm.trans h)
    intro p hp; cases p <;> first | exact absurd (by decide) hp | exact rfl | exact fun _ => rfl
  · obtain rfl := Host.Outcome.next.inj ((call_full w (Fin.not_lt.1 hs)).symm.trans h)
    exact (recordFault_onlyChanges s _).mono (by decide)

/-- A return changes sp and pc, or records a fault (R133). -/
theorem popPc_onlyChanges {s t : State} (h : s.popPc = .next t) : OnlyChanges [.sp, .pc, .fault] s t := by
  by_cases hs : s.sp = 0
  · obtain rfl := Host.Outcome.next.inj ((popPc_empty hs).symm.trans h)
    exact (recordFault_onlyChanges s _).mono (by decide)
  · obtain ⟨a, b, e⟩ := popPc_next hs
    obtain rfl := Host.Outcome.next.inj (e.symm.trans h)
    intro p hp; cases p <;> first | exact absurd (by decide) hp | exact rfl | exact fun _ => rfl

/-- Bytes written from `a` up leave every other byte alone. -/
theorem writeAll_bytesKeptBut (s : State) (a : Nat) (bs : List Byte) :
    BytesKeptBut a bs.length s (s.setMem (s.mem.writeAll s.params a bs)) := by
  intro b hb
  rw [State.setMem_byteAt, Memory.read_writeAll, dif_neg (by omega)]
  rfl

/-- The byte written at `a + j`. -/
theorem writeAll_byteAt (s : State) (a : Nat) (bs : List Byte) (j : Nat) (hj : j < bs.length) :
    (s.setMem (s.mem.writeAll s.params a bs)).byteAt (a + j) = bs[j] := by
  rw [State.setMem_byteAt, Memory.read_writeAll, dif_pos ⟨by omega, by omega⟩]
  simp

end Sys2Proof.Machine
end

