-- ==== Sys2Proof/Laws/PerInstr.lean ====
section
/-! SUPPORT. Per instruction: its word fits its row of the opcode table, mask and match. -/

namespace Sys2Proof.Laws

/-- A row of spec/opcode_table.json: which bits of a word are fixed, and to what. -/
structure TableRow where
  mask : Word
  value : Word
deriving DecidableEq, Repr

/-- The row of an instruction, as the table gives its mask and match. -/
def tableRow : Instr → TableRow
  | .sys _ => ⟨0xF000, 0x0000⟩
  | .cls => ⟨0xFFFF, 0x00E0⟩
  | .ret => ⟨0xFFFF, 0x00EE⟩
  | .jp _ => ⟨0xF000, 0x1000⟩
  | .call _ => ⟨0xF000, 0x2000⟩
  | .seImm _ _ => ⟨0xF000, 0x3000⟩
  | .sneImm _ _ => ⟨0xF000, 0x4000⟩
  | .seReg _ _ => ⟨0xF00F, 0x5000⟩
  | .ldImm _ _ => ⟨0xF000, 0x6000⟩
  | .addImm _ _ => ⟨0xF000, 0x7000⟩
  | .mov _ _ => ⟨0xF00F, 0x8000⟩
  | .or _ _ => ⟨0xF00F, 0x8001⟩
  | .and _ _ => ⟨0xF00F, 0x8002⟩
  | .xor _ _ => ⟨0xF00F, 0x8003⟩
  | .add _ _ => ⟨0xF00F, 0x8004⟩
  | .sub _ _ => ⟨0xF00F, 0x8005⟩
  | .shr _ _ => ⟨0xF00F, 0x8006⟩
  | .subn _ _ => ⟨0xF00F, 0x8007⟩
  | .shl _ _ => ⟨0xF00F, 0x800E⟩
  | .sneReg _ _ => ⟨0xF00F, 0x9000⟩
  | .ldI _ => ⟨0xF000, 0xA000⟩
  | .jpV0 _ => ⟨0xF000, 0xB000⟩
  | .rnd _ _ => ⟨0xF000, 0xC000⟩
  | .drw _ _ _ => ⟨0xF000, 0xD000⟩
  | .skp _ => ⟨0xF0FF, 0xE09E⟩
  | .sknp _ => ⟨0xF0FF, 0xE0A1⟩
  | .ldVxDt _ => ⟨0xF0FF, 0xF007⟩
  | .ldVxK _ => ⟨0xF0FF, 0xF00A⟩
  | .ldDtVx _ => ⟨0xF0FF, 0xF015⟩
  | .ldStVx _ => ⟨0xF0FF, 0xF018⟩
  | .addIVx _ => ⟨0xF0FF, 0xF01E⟩
  | .ldFVx _ => ⟨0xF0FF, 0xF029⟩
  | .ldBVx _ => ⟨0xF0FF, 0xF033⟩
  | .ldMemVx _ => ⟨0xF0FF, 0xF055⟩
  | .ldVxMem _ => ⟨0xF0FF, 0xF065⟩

/-- Masking a word of two fields masks each field. -/
theorem mask_two (a c : BitVec 4) (b d : BitVec 12) :
    (show Word from a ++ b) &&& (show Word from c ++ d) = (a &&& c) ++ (b &&& d) :=
  BitVec.and_append

/-- Masking a word of three fields masks each field. -/
theorem mask_three (a d b e : BitVec 4) (c f : BitVec 8) :
    (show Word from a ++ b ++ c) &&& (show Word from d ++ e ++ f) = (a &&& d) ++ (b &&& e) ++ (c &&& f) := by
  show (a ++ b ++ c) &&& (d ++ e ++ f) = _
  rw [BitVec.and_append, BitVec.and_append]

/-- Masking a word of four fields masks each field. -/
theorem mask_four (a b c d e f g h : BitVec 4) :
    (show Word from a ++ b ++ c ++ d) &&& (show Word from e ++ f ++ g ++ h) =
      (a &&& e) ++ (b &&& f) ++ (c &&& g) ++ (d &&& h) := by
  show ((a ++ b ++ c ++ d : BitVec (4 + 4 + 4 + 4)) &&& (e ++ f ++ g ++ h : BitVec (4 + 4 + 4 + 4))) = _
  rw [BitVec.and_append, BitVec.and_append, BitVec.and_append]

theorem and_ones4 (a : BitVec 4) : a &&& 0xF = a := BitVec.and_allOnes

theorem and_zeros (n : Nat) (a : BitVec n) : a &&& 0 = 0 := BitVec.and_zero

/-- The fixed bits of a format NNN word are its opcode. -/
theorem formNNN_mask (op : BitVec 4) (nnn : Addr12) : formNNN op nnn &&& 0xF000 = op ++ (0 : BitVec 12) :=
  (mask_two op 0xF nnn 0).trans (by rw [and_ones4, and_zeros])

/-- The fixed bits of a format XNN word with NN free are its opcode. -/
theorem formXNN_mask (op : BitVec 4) (x : Reg) (nn : Byte) :
    formXNN op x nn &&& 0xF000 = op ++ (0 : BitVec 4) ++ (0 : BitVec 8) :=
  (mask_three op 0xF (BitVec.ofFin (w := 4) x) 0 nn 0).trans (by rw [and_ones4, and_zeros, and_zeros])

/-- The fixed bits of a format X word are its opcode and NN. -/
theorem formX_mask (op : BitVec 4) (x : Reg) (nn : Byte) :
    formXNN op x nn &&& 0xF0FF = op ++ (0 : BitVec 4) ++ nn :=
  (mask_three op 0xF (BitVec.ofFin (w := 4) x) 0 nn 0xFF).trans
    (by rw [and_ones4, and_zeros, show nn &&& 0xFF = nn from BitVec.and_allOnes])

/-- The fixed bits of a format XY word are its opcode and N. -/
theorem formXY_mask (op : BitVec 4) (x y : Reg) (n : BitVec 4) :
    formXYN op x y n &&& 0xF00F = op ++ (0 : BitVec 4) ++ (0 : BitVec 4) ++ n :=
  (mask_four op (BitVec.ofFin (w := 4) x) (BitVec.ofFin (w := 4) y) n 0xF 0 0 0xF).trans
    (by rw [and_ones4, and_ones4, and_zeros, and_zeros])

/-- The fixed bits of a format XYN word with N free are its opcode. -/
theorem formXYN_mask (op : BitVec 4) (x y : Reg) (n : BitVec 4) :
    formXYN op x y n &&& 0xF000 = op ++ (0 : BitVec 4) ++ (0 : BitVec 4) ++ (0 : BitVec 4) :=
  (mask_four op (BitVec.ofFin (w := 4) x) (BitVec.ofFin (w := 4) y) n 0xF 0 0 0).trans
    (by rw [and_ones4, and_zeros, and_zeros, and_zeros])

namespace TableFit

/-- The instruction's word has the bits its row of the opcode table fixes. -/
def Statement (i : Instr) : Prop := encode i &&& (tableRow i).mask = (tableRow i).value

theorem sys (nnn : Addr12) : Statement (.sys nnn) := formNNN_mask _ _
theorem cls : Statement .cls := by unfold Statement; decide
theorem ret : Statement .ret := by unfold Statement; decide
theorem jp (nnn : Addr12) : Statement (.jp nnn) := formNNN_mask _ _
theorem call (nnn : Addr12) : Statement (.call nnn) := formNNN_mask _ _
theorem seImm (x : Reg) (nn : Byte) : Statement (.seImm x nn) := formXNN_mask _ _ _
theorem sneImm (x : Reg) (nn : Byte) : Statement (.sneImm x nn) := formXNN_mask _ _ _
theorem seReg (x y : Reg) : Statement (.seReg x y) := formXY_mask _ _ _ _
theorem ldImm (x : Reg) (nn : Byte) : Statement (.ldImm x nn) := formXNN_mask _ _ _
theorem addImm (x : Reg) (nn : Byte) : Statement (.addImm x nn) := formXNN_mask _ _ _
theorem mov (x y : Reg) : Statement (.mov x y) := formXY_mask _ _ _ _
theorem or (x y : Reg) : Statement (.or x y) := formXY_mask _ _ _ _
theorem and (x y : Reg) : Statement (.and x y) := formXY_mask _ _ _ _
theorem xor (x y : Reg) : Statement (.xor x y) := formXY_mask _ _ _ _
theorem add (x y : Reg) : Statement (.add x y) := formXY_mask _ _ _ _
theorem sub (x y : Reg) : Statement (.sub x y) := formXY_mask _ _ _ _
theorem shr (x y : Reg) : Statement (.shr x y) := formXY_mask _ _ _ _
theorem subn (x y : Reg) : Statement (.subn x y) := formXY_mask _ _ _ _
theorem shl (x y : Reg) : Statement (.shl x y) := formXY_mask _ _ _ _
theorem sneReg (x y : Reg) : Statement (.sneReg x y) := formXY_mask _ _ _ _
theorem ldI (nnn : Addr12) : Statement (.ldI nnn) := formNNN_mask _ _
theorem jpV0 (nnn : Addr12) : Statement (.jpV0 nnn) := formNNN_mask _ _
theorem rnd (x : Reg) (nn : Byte) : Statement (.rnd x nn) := formXNN_mask _ _ _
theorem drw (x y : Reg) (n : Fin 16) : Statement (.drw x y n) := formXYN_mask _ _ _ _
theorem skp (x : Reg) : Statement (.skp x) := formX_mask _ _ _
theorem sknp (x : Reg) : Statement (.sknp x) := formX_mask _ _ _
theorem ldVxDt (x : Reg) : Statement (.ldVxDt x) := formX_mask _ _ _
theorem ldVxK (x : Reg) : Statement (.ldVxK x) := formX_mask _ _ _
theorem ldDtVx (x : Reg) : Statement (.ldDtVx x) := formX_mask _ _ _
theorem ldStVx (x : Reg) : Statement (.ldStVx x) := formX_mask _ _ _
theorem addIVx (x : Reg) : Statement (.addIVx x) := formX_mask _ _ _
theorem ldFVx (x : Reg) : Statement (.ldFVx x) := formX_mask _ _ _
theorem ldBVx (x : Reg) : Statement (.ldBVx x) := formX_mask _ _ _
theorem ldMemVx (x : Reg) : Statement (.ldMemVx x) := formX_mask _ _ _
theorem ldVxMem (x : Reg) : Statement (.ldVxMem x) := formX_mask _ _ _

end TableFit

end Sys2Proof.Laws
end

