-- ==== Sys2Proof/Laws/Step.lean ====
section
/-! SUPPORT. Everything one step can do (R130 to R132), and what a list of host calls does call by call. -/

namespace Sys2Proof.Machine

theorem step_faulted {s : State} {c : Fault} (h : s.fault = some c) : step s = .fault c := by
  unfold step cycle; rw [h]

theorem step_latched {s : State} (h : s.fault = none) (hl : s.latched = true) : step s = .next s := by
  unfold step cycle; rw [h, hl]; rfl

/-- A running machine executes the word it fetches. -/
theorem step_running {s : State} (h : s.Running) {w : Word} (hf : fetch s = .ok w) :
    step s = runWord exec w s := by
  unfold step cycle runningCycle; rw [h.1, h.2, hf]; rfl

theorem step_fetchFault {s : State} (h : s.Running) {c : Fault} (hf : fetch s = .error c) :
    step s = .next (s.recordFault c) := by
  unfold step cycle runningCycle; rw [h.1, h.2, hf]; rfl

theorem runWord_instr (run : Instr → State → Host.Outcome State Fault Refusal) {w : Word} {i : Instr}
    (h : decode w = .instr i) (s : State) : runWord run w s = run i s.advancePc := by
  unfold runWord; rw [h]

theorem runWord_error (run : Instr → State → Host.Outcome State Fault Refusal) {w w' : Word}
    (h : decode w = .decodeError w') (s : State) :
    runWord run w s = .next (s.advancePc.recordFault (.decodeError w)) := by
  have e := decodeError_word h
  subst e
  unfold runWord; rw [h]; rfl

/-- The five things a step can do. -/
theorem step_cases (s : State) :
    (∃ c, s.fault = some c ∧ step s = .fault c) ∨
    (s.fault = none ∧ s.latched = true ∧ step s = .next s) ∨
    (s.Running ∧ Config.memSize ≤ s.pc.toNat + 1 ∧
      step s = .next (s.recordFault (.memoryBounds (max s.pc.toNat 4096)))) ∨
    (s.Running ∧ ∃ w, fetch s = .ok w ∧ decode w = .decodeError w ∧
      step s = .next (s.advancePc.recordFault (.decodeError w))) ∨
    (s.Running ∧ ∃ w i, fetch s = .ok w ∧ decode w = .instr i ∧ step s = exec i s.advancePc) := by
  cases hf : s.fault with
  | some c => exact .inl ⟨c, rfl, step_faulted hf⟩
  | none =>
    cases hl : s.latched with
    | true => exact .inr (.inl ⟨rfl, rfl, step_latched hf hl⟩)
    | false =>
      have hr : s.Running := ⟨hf, hl⟩
      by_cases hp : Config.memSize ≤ s.pc.toNat + 1
      · exact .inr (.inr (.inl ⟨hr, hp, step_fetchFault hr (fetch_error hp)⟩))
      · have hw := fetch_ok (Nat.not_le.1 hp)
        cases hd : decode (wordOfBytes (s.byteAt s.pc.toNat) (s.byteAt (s.pc.toNat + 1))) with
        | decodeError w' =>
          have e := decodeError_word hd
          rw [e] at hd
          exact .inr (.inr (.inr (.inl ⟨hr, _, hw, hd, by rw [step_running hr hw, runWord_error exec hd]⟩)))
        | instr i =>
          exact .inr (.inr (.inr (.inr ⟨hr, _, i, hw, hd, by rw [step_running hr hw, runWord_instr exec hd]⟩)))

theorem stepState_next {s t : State} (h : step s = .next t) : stepState s = t := by unfold stepState; rw [h]

/-- A run whose first step answers a next state goes on from there. -/
theorem run_of_step (M : Host.Core) {s t : M.State} (h : M.step s = .next t) (n : Nat) :
    M.run (n + 1) s = M.run n t := by
  rw [Host.Core.run, h]

theorem run_succ {s t : State} (h : step s = .next t) (n : Nat) :
    Sys2Proof.core.run (n + 1) s = Sys2Proof.core.run n t := run_of_step Sys2Proof.core h n

@[simp] theorem hostRun_nil (s : State) : hostRun [] s = s := rfl

@[simp] theorem hostRun_cons (c : HostCall) (cs : List HostCall) (s : State) :
    hostRun (c :: cs) s = hostRun cs (hostCall c s).1 := rfl

theorem hostRun_append (cs ds : List HostCall) (s : State) :
    hostRun (cs ++ ds) s = hostRun ds (hostRun cs s) := by
  induction cs generalizing s with
  | nil => rfl
  | cons c cs ih => exact ih _

end Sys2Proof.Machine
end

