-- ==== Sys2Proof/Tests/Slice0.lean ====
section
/-! SUPPORT. The model's own tests: ill-formed terms, words written out from the encodings of 30_encoding.md, one-step vectors of 95_test_vectors.md, and a witness for the hypotheses of every statement that has some. -/

namespace Sys2Proof.Tests
open Sys2Proof Sys2Proof.Machine

/-! ### Helpers -/

/-- The reset machine with one instruction word at 0x200 and V0, V1 set. -/
def withWord (w : Word) (v0 v1 : Byte) : State := ((State.reset.placeWord w).setV 0 v0).setV 1 v1

/-- The state after one step on that machine. -/
def after (w : Word) (v0 v1 : Byte) : State := stepState (withWord w v0 v1)

/-- V0 and VF after one step. -/
def resultFlag (w : Word) (v0 v1 : Byte) : Byte × Byte := ((after w v0 v1).getV 0, (after w v0 v1).getV 15)

/-- The reset machine with I, memory from I up, and V0, V1 set. -/
def withBytes (i : Word) (bs : List Byte) (v0 v1 : Byte) : State :=
  (((State.reset.setMem (State.reset.mem.writeAll defaultParams i.toNat bs)).setIndex i).setV 0 v0).setV 1 v1

/-- The state an instruction leaves. -/
def ran (i : Instr) (s : State) : State :=
  match exec i s with
  | .next t => t
  | .fault _ | .refused _ => s

/-- A stack of `n` return addresses 0x404. -/
def withStack (n : Fin 17) : State := { State.reset with stack := Vector.replicate 16 0x404, sp := n }

/-- The lit cells of row `y`. -/
def litColumns (s : State) (y : Nat) : List Nat := (List.range 64).filter fun x => s.disp.cell x y

theorem writable_of {a n : Nat} (h : ∀ j, j < n → a + j < 4096 ∧ (a + j < 0x050 ∨ 0x09F < a + j)) : Writable a n := by
  rintro j hj c (⟨h1, -⟩ | ⟨h1, h2, -⟩)
  · have := (h j hj).1; omega
  · have := (h j hj).2; omega

/-! ### Well-formedness: the words of CLS and RET are no SYS (R84, R90) -/

theorem test_sys_of_cls_word_is_ill_formed : (Instr.sys 0x0E0).wellFormed = false := by decide
theorem test_sys_of_ret_word_is_ill_formed : (Instr.sys 0x0EE).wellFormed = false := by decide
theorem test_other_sys_is_well_formed : (Instr.sys 0x0E1).wellFormed = true := by decide

/-! ### Decoding: words written out from the patterns of R84, bits in nibbles op X Y N -/

theorem test_decode_sys_cls_ret :
    decode 0b0000_0001_0010_0011 = .instr (.sys 0x123) ∧ decode 0b0000_0000_1110_0000 = .instr .cls ∧
    decode 0b0000_0000_1110_1110 = .instr .ret ∧ decode 0b0000_0000_0000_0000 = .instr (.sys 0) := by decide
theorem test_decode_jumps :
    decode 0b0001_0010_0011_0100 = .instr (.jp 0x234) ∧ decode 0b0010_1010_1011_1100 = .instr (.call 0xABC) ∧
    decode 0b1011_0011_0000_0000 = .instr (.jpV0 0x300) := by decide
theorem test_decode_skips :
    decode 0b0011_0011_0100_0010 = .instr (.seImm 3 0x42) ∧ decode 0b0100_0011_0100_0011 = .instr (.sneImm 3 0x43) ∧
    decode 0b0101_0101_0110_0000 = .instr (.seReg 5 6) ∧ decode 0b1001_0101_0110_0000 = .instr (.sneReg 5 6) := by decide
theorem test_decode_immediates :
    decode 0b0110_1010_0100_0010 = .instr (.ldImm 10 0x42) ∧ decode 0b0111_1111_0000_0001 = .instr (.addImm 15 0x01) ∧
    decode 0b1100_0001_1111_0000 = .instr (.rnd 1 0xF0) := by decide
theorem test_decode_logic :
    decode 0b1000_0000_0101_0000 = .instr (.mov 0 5) ∧ decode 0b1000_0000_0001_0001 = .instr (.or 0 1) ∧
    decode 0b1000_0000_0001_0010 = .instr (.and 0 1) ∧ decode 0b1000_0000_0001_0011 = .instr (.xor 0 1) := by decide
theorem test_decode_arithmetic :
    decode 0b1000_0000_0001_0100 = .instr (.add 0 1) ∧ decode 0b1000_0000_0001_0101 = .instr (.sub 0 1) ∧
    decode 0b1000_0010_0001_0110 = .instr (.shr 2 1) ∧ decode 0b1000_0010_0001_0111 = .instr (.subn 2 1) ∧
    decode 0b1000_0010_0001_1110 = .instr (.shl 2 1) := by decide
theorem test_decode_index_and_memory :
    decode 0b1010_0011_0000_0000 = .instr (.ldI 0x300) ∧ decode 0b1111_0010_0001_1110 = .instr (.addIVx 2) ∧
    decode 0b1111_0010_0010_1001 = .instr (.ldFVx 2) ∧ decode 0b1111_0010_0011_0011 = .instr (.ldBVx 2) ∧
    decode 0b1111_0010_0101_0101 = .instr (.ldMemVx 2) ∧ decode 0b1111_0010_0110_0101 = .instr (.ldVxMem 2) := by decide
theorem test_decode_draw_timers_keys :
    decode 0b1101_1010_1011_0010 = .instr (.drw 10 11 2) ∧ decode 0b1111_0011_0000_0111 = .instr (.ldVxDt 3) ∧
    decode 0b1111_0011_0001_0101 = .instr (.ldDtVx 3) ∧ decode 0b1111_0100_0001_1000 = .instr (.ldStVx 4) ∧
    decode 0b1110_0001_1001_1110 = .instr (.skp 1) ∧ decode 0b1110_0001_1010_0001 = .instr (.sknp 1) ∧
    decode 0b1111_0010_0000_1010 = .instr (.ldVxK 2) := by decide
/-- F1 to F5 of 95_test_vectors.md. -/
theorem test_illegal_words :
    decode 0x5121 = .decodeError 0x5121 ∧ decode 0x8008 = .decodeError 0x8008 ∧ decode 0xE0FF = .decodeError 0xE0FF ∧
    decode 0xF0FF = .decodeError 0xF0FF ∧ decode 0x9001 = .decodeError 0x9001 := by decide
/-- "In memory it is byte 0x80 followed by byte 0x14" (R89). -/
theorem test_bytes_of_a_word :
    decodeBytes [0x80, 0x14, 0x99] = some (.instr (.add 0 1), [0x99]) ∧ decodeBytes [0x80] = none := by decide
/-- The opcode table's value 0x8014 is ADD V0, V1, and the first step after reset runs it. -/
theorem test_table_word : decodeTableWord 16 0x8014 = some (.add 0 1) ∧ decodeTableWord 16 0x5121 = none ∧
    (stepState (State.reset.withFetchWord 16 0x6A42)).getV 10 = 0x42 := by decide

/-! ### Registers and arithmetic (95_test_vectors.md W1 to W4, section 2.1) -/

theorem test_add_carries : resultFlag 0x8014 0xC8 0x64 = (0x2C, 1) := by decide
theorem test_add_flag_is_written_last : (stepState (((State.reset.placeWord 0x8F14).setV 15 0xFF).setV 1 1)).getV 15 = 1 := by decide
theorem test_sub_borrows : resultFlag 0x8015 0x64 0xC8 = (0x9C, 0) := by decide
theorem test_sub_equal : resultFlag 0x8015 7 7 = (0, 1) := by decide
theorem test_subn_reverses : resultFlag 0x8017 3 5 = (2, 1) := by decide
theorem test_subn_borrows : resultFlag 0x8017 5 3 = (0xFE, 0) := by decide
theorem test_or_clears_flag : (ran (.or 0 1) ((withWord 0 1 2).setV 15 1)).getV 15 = 0 ∧ resultFlag 0x8011 1 2 = (3, 0) := by decide
theorem test_and : resultFlag 0x8012 0x3C 0x0F = (0x0C, 0) := by decide
theorem test_xor_self : resultFlag 0x8003 0x5A 0 = (0, 0) := by decide
theorem test_shr_reads_y : resultFlag 0x8016 0xAA 0x04 = (2, 0) := by decide
theorem test_shr_flag : resultFlag 0x8016 0 0x03 = (1, 1) := by decide
theorem test_shl_reads_y : resultFlag 0x801E 0 0x7F = (0xFE, 0) := by decide
theorem test_shl_flag : resultFlag 0x801E 0 0x80 = (0, 1) := by decide
theorem test_mov : resultFlag 0x8010 0x12 0x34 = (0x34, 0) := by decide
theorem test_addImm_keeps_flag : (ran (.addImm 0 1) ((withWord 0 0xFF 0).setV 15 0x55)).getV 15 = 0x55 ∧ (after 0x7001 0xFF 0).getV 0 = 0 := by decide
theorem test_addImm_on_vf : (ran (.addImm 15 1) (State.reset.setV 15 0x10)).getV 15 = 0x11 := by decide
theorem test_ldImm : (after 0x6A42 0 0).getV 10 = 0x42 := by decide
/-- A32: V0 = 0 whatever the draw; and one draw is taken. -/
theorem test_rnd_mask_zero (s : State) : (ran (.rnd 0 0) s).getV 0 = 0 ∧ (ran (.rnd 0 0) s).draws = s.draws + 1 := by
  simp [ran, exec, execRnd, State.getV, State.setV, State.countDraw]

/-! ### Control (section 2.2) -/

theorem test_jp : (after 0x1234 0 0).pc = 0x234 := by decide
theorem test_jp_self : hostCall .step (State.reset.placeWord 0x1200) = (State.reset.placeWord 0x1200, .step .executed) := by decide
theorem test_call : (after 0x2ABC 0 0).pc = 0xABC ∧ (after 0x2ABC 0 0).stack[0] = 0x202 ∧ (after 0x2ABC 0 0).sp = 1 := by decide
theorem test_call_overflows : (ran (.call 0x200) (withStack 16)).fault = some .stackOverflow := by decide
theorem test_ret : (ran .ret (withStack 2)).pc = 0x404 ∧ (ran .ret (withStack 2)).sp = 1 ∧ (ran .ret (withStack 2)).stack[1] = 0x404 := by decide
theorem test_ret_underflows : (after 0x00EE 0 0).fault = some .stackUnderflow ∧ (after 0x00EE 0 0).pc = 0x202 := by decide
theorem test_jpV0 : (after 0xBFFF 0xFF 0).pc = 0x10FE := by decide
theorem test_sys : (after 0x0123 0 0).fault = some (.sysUnsupported 0x0123) ∧ (after 0x0123 0 0).pc = 0x202 := by decide
theorem test_seImm : (after 0x3042 0x42 0).pc = 0x204 ∧ (after 0x3043 0x42 0).pc = 0x202 := by decide
theorem test_sneImm : (after 0x4042 0x42 0).pc = 0x202 ∧ (after 0x4043 0x42 0).pc = 0x204 := by decide
theorem test_seReg : (after 0x5550 0 0).pc = 0x204 ∧ (after 0x5010 1 2).pc = 0x202 := by decide
theorem test_sneReg : (after 0x9550 0 0).pc = 0x202 ∧ (after 0x9010 1 2).pc = 0x204 := by decide
/-- C15: a skip at the top of memory goes beyond it, and the next fetch faults with pc left there. -/
theorem test_skip_past_memory : (stepState ((State.reset.setPc 0xFFE).placeWord 0x3000)).pc = 0x1002 ∧
    (stepState (State.reset.setPc 0x1002)).fault = some (.memoryBounds 0x1002) ∧ (stepState (State.reset.setPc 0x1002)).pc = 0x1002 := by decide
/-- F6: the second byte of the fetch lies outside memory. -/
theorem test_fetch_at_the_last_byte : (stepState (State.reset.setPc 0xFFF)).fault = some (.memoryBounds 0x1000) ∧
    (stepState (State.reset.setPc 0xFFF)).pc = 0xFFF := by decide
/-- F1: pc is past the illegal word. -/
theorem test_decode_error : (after 0x5121 0 0).fault = some (.decodeError 0x5121) ∧ (after 0x5121 0 0).pc = 0x202 := by decide
/-- F7: a step of a faulted machine answers the recorded fault. -/
theorem test_faulted_step : hostCall .step (State.reset.recordFault .stackOverflow) =
    (State.reset.recordFault .stackOverflow, .step (.faulted .stackOverflow)) := by decide

/-! ### Index and memory (section 2.3) -/

theorem test_ldI : (after 0xA300 0 0).index = 0x300 := by decide
theorem test_addI_wraps : (ran (.addIVx 0) (withBytes 0xFFFF [] 1 0)).index = 0 := by decide
theorem test_addI_no_flag : (ran (.addIVx 0) (withBytes 0x0FFF [] 1 0)).index = 0x1000 ∧ (ran (.addIVx 0) (withBytes 0x0FFF [] 1 0)).getV 15 = 0 := by decide
theorem test_ldF_full : (after 0xF029 0x0F 0).index = 0x09B ∧ (after 0xF029 0xFF 0).index = 0x54B := by decide
theorem test_ldF_low_nibble : (ran (.ldFVx 0) { withBytes 0 [] 0x10 0 with params := { defaultParams with fontIndexMode := .lowNibble } }).index = 0x050 := by decide
theorem test_bcd : (ran (.ldBVx 0) (withBytes 0x300 [] 0xFF 0)).mem = [(0x300, 2), (0x301, 5), (0x302, 5)] ∧
    (ran (.ldBVx 0) (withBytes 0x300 [] 0xFF 0)).index = 0x300 := by decide
/-- M18 -/
theorem test_bcd_faults_at_the_end : (ran (.ldBVx 0) (withBytes 0xFFE [] 200 0)).byteAt 0xFFE = 2 ∧
    (ran (.ldBVx 0) (withBytes 0xFFE [] 200 0)).fault = some (.memoryBounds 0x1000) ∧ (ran (.ldBVx 0) (withBytes 0xFFE [] 200 0)).index = 0xFFE := by decide
theorem test_block_store : (ran (.ldMemVx 3) (withBytes 0x300 [] 0x12 0)).byteAt 0x300 = 0x12 ∧ (ran (.ldMemVx 3) (withBytes 0x300 [] 0x12 0)).index = 0x304 := by decide
/-- M21 -/
theorem test_block_store_font : (ran (.ldMemVx 1) (withBytes 0x04F [] 7 8)).mem = [(0x04F, 7)] ∧
    (ran (.ldMemVx 1) (withBytes 0x04F [] 7 8)).fault = some (.fontWrite 0x050) := by decide
/-- M17 -/
theorem test_block_load_font : (ran (.ldVxMem 2) (withBytes 0x050 [] 0 0)).getV 0 = 0xF0 ∧ (ran (.ldVxMem 2) (withBytes 0x050 [] 0 0)).getV 1 = 0x90 ∧
    (ran (.ldVxMem 2) (withBytes 0x050 [] 0 0)).index = 0x053 := by decide
theorem test_block_load_all : (ran (.ldVxMem 15) (withBytes 0x300 [0xF0, 0xF1] 0 0)).getV 1 = 0xF1 ∧ (ran (.ldVxMem 15) (withBytes 0x300 [0xF0, 0xF1] 0 0)).index = 0x310 := by decide

/-! ### Display (section 2.4) -/

theorem test_drw_clips : litColumns (ran (.drw 0 1 1) (withBytes 0x300 [0xFF] 60 0)) 0 = [60, 61, 62, 63] ∧
    (ran (.drw 0 1 1) (withBytes 0x300 [0xFF] 60 0)).getV 15 = 0 := by decide
/-- W6 -/
theorem test_drw_twice : (ran (.drw 0 1 1) (ran (.drw 0 1 1) (withBytes 0x300 [0xFF] 60 0))).disp = State.reset.disp ∧
    (ran (.drw 0 1 1) (ran (.drw 0 1 1) (withBytes 0x300 [0xFF] 60 0))).getV 15 = 1 := by decide
theorem test_cls : litColumns (ran .cls (ran (.drw 0 1 1) (withBytes 0x300 [0xFF] 60 0))) 0 = [] := by decide

/-! ### Timers, keys and the host's calls (sections 2.5 to 2.7) -/

theorem test_ldVxDt : (ran (.ldVxDt 3) (State.reset.setDt 7)).getV 3 = 7 := by decide
theorem test_ldDtVx : (after 0xF015 5 0).dt = 5 := by decide
theorem test_ldStVx : (after 0xF018 0x10 0).st = 0x10 := by decide
theorem test_tick : (tickTimers ((State.reset.setDt 0).setSt 3)).1.st = 2 ∧ (tickTimers ((State.reset.setDt 0).setSt 3)).1.dt = 0 ∧
    (tickTimers ((State.reset.setDt 0).setSt 3)).2 = true := by decide
theorem test_skp : (stepState ((withWord 0xE19E 0 7).setKey 7 true)).pc = 0x204 ∧ (after 0xE19E 0 7).pc = 0x202 := by decide
theorem test_skp_key_index : (after 0xE19E 0 0x10).fault = some (.keyIndex 0x10) := by decide
theorem test_sknp : (stepState ((withWord 0xE1A1 0 7).setKey 7 true)).pc = 0x202 ∧ (after 0xE1A1 0 7).pc = 0x204 := by decide
/-- K6 -/
theorem test_wait_repeats : hostCall .step (withWord 0xF20A 0 0) = (withWord 0xF20A 0 0, .step .repeated) := by decide
/-- K7 -/
theorem test_wait_takes_lowest : (stepState (((withWord 0xF20A 0 0).setKey 9 true).setKey 3 true)).getV 2 = 3 ∧
    (stepState (((withWord 0xF20A 0 0).setKey 9 true).setKey 3 true)).pc = 0x202 ∧ (stepState ((withWord 0xF20A 0 0).setKey 3 true)).latched = false := by decide
/-- K8 -/
theorem test_press_satisfies : (press 9 ((withWord 0xF20A 0 0).setKey 2 true)).2 = true ∧ (press 9 ((withWord 0xF20A 0 0).setKey 2 true)).1.getV 2 = 2 ∧
    (press 9 ((withWord 0xF20A 0 0).setKey 2 true)).1.latchedKey = 9 ∧ (press 9 ((withWord 0xF20A 0 0).setKey 2 true)).1.pc = 0x202 := by decide
/-- K9, K10 -/
theorem test_release : (release 2 (press 9 ((withWord 0xF20A 0 0).setKey 2 true)).1).latched = true ∧
    (release 9 (press 9 ((withWord 0xF20A 0 0).setKey 2 true)).1).latched = false := by decide
/-- K14 -/
theorem test_press_at_the_last_byte : press 1 (State.reset.setPc 0xFFF) = ((State.reset.setPc 0xFFF).setKey 1 true, false) := by decide
theorem test_load : (hostCall (.load [0x12, 0x00]) State.reset).1.mem = [(0x200, 0x12)] := by decide
theorem test_reset_memory : State.reset.byteAt 0x050 = 0xF0 ∧ State.reset.byteAt 0x09F = 0x80 ∧ State.reset.byteAt 0x0A0 = 0 ∧
    State.reset.pc = 0x200 := by decide

/-! ### Witnesses: a concrete state and operands that meet the hypotheses of each statement, clause by clause -/

theorem running_withWord (w : Word) (v0 v1 : Byte) : (withWord w v0 v1).Running := ⟨rfl, rfl⟩

theorem witness_DecodeOfEncode : (Instr.drw 15 15 15).wellFormed = true ∧ (Instr.sys 0x0E1).wellFormed = true := by decide
theorem witness_EncodeOfDecode : decode 0xDFFF = .instr (.drw 15 15 15) := by decide
theorem witness_DecodeErrorWord : decode 0x800F = .decodeError 0x800F := by decide
/-- The last address an instruction fits at. -/
theorem witness_StepRuns : ((State.reset.setPc 4094).placeWord 0x8014).Running ∧
    ((State.reset.setPc 4094).placeWord 0x8014).pc.toNat + 1 < 4096 ∧
    decode (wordOfBytes (((State.reset.setPc 4094).placeWord 0x8014).byteAt 4094)
      (((State.reset.setPc 4094).placeWord 0x8014).byteAt 4095)) = .instr (.add 0 1) := ⟨⟨rfl, rfl⟩, by decide⟩
theorem witness_Fetch : (State.reset.setPc 4094).pc.toNat + 1 < 4096 ∧ (State.reset.setPc 4095).pc.toNat = 4095 ∧
    4096 ≤ (State.reset.setPc 4096).pc.toNat := by decide
theorem witness_FetchFault : (State.reset.setPc 4095).Running ∧ 4095 ≤ (State.reset.setPc 4095).pc.toNat := ⟨⟨rfl, rfl⟩, by decide⟩
theorem witness_UndecodedWord : (withWord 0x5121 0 0).Running ∧ fetch (withWord 0x5121 0 0) = .ok 0x5121 ∧
    decode 0x5121 = .decodeError 0x5121 := ⟨⟨rfl, rfl⟩, rfl, by decide⟩
theorem witness_FaultedStep : (State.reset.recordFault .stackOverflow).fault = some .stackOverflow := by decide
theorem witness_LatchedStep : (State.reset.latch 15).fault = none ∧ (State.reset.latch 15).latched = true := by decide
theorem witness_StepReports_fault : (withWord 0x00EE 0 0).Running ∧ fetch (withWord 0x00EE 0 0) = .ok 0x00EE ∧
    decode 0x00EE = .instr .ret ∧ (ran .ret (withWord 0x00EE 0 0).advancePc).fault = some .stackUnderflow :=
  ⟨⟨rfl, rfl⟩, rfl, by decide⟩
theorem witness_StepReports_repeat : (withWord 0xF20A 0 0).Running ∧ fetch (withWord 0xF20A 0 0) = .ok 0xF20A ∧
    decode 0xF20A = .instr (.ldVxK 2) ∧ (ran (.ldVxK 2) (withWord 0xF20A 0 0).advancePc).fault = none ∧
    ∀ k, (withWord 0xF20A 0 0).key k = false := ⟨⟨rfl, rfl⟩, rfl, by decide⟩
theorem witness_StepReports_executed : (withWord 0x8014 0 0).Running ∧ fetch (withWord 0x8014 0 0) = .ok 0x8014 ∧
    decode 0x8014 = .instr (.add 0 1) ∧ (ran (.add 0 1) (withWord 0x8014 0 0).advancePc).fault = none ∧
    ¬ ((∃ x, Instr.add 0 1 = .ldVxK x) ∧ ∀ k, (withWord 0x8014 0 0).key k = false) :=
  ⟨⟨rfl, rfl⟩, rfl, by decide, by decide, fun h => absurd h.1 (by rintro ⟨x, hx⟩; cases hx)⟩
theorem witness_EveryInstructionRuns : State.reset.fault = none := by decide
theorem witness_FaultStays : (State.reset.recordFault .stackOverflow).fault = some .stackOverflow ∧
    HostCall.reset ∉ [HostCall.step, .load [1], .press 3] := by decide
theorem witness_WriteOnlyTheirParts : ∃ t, exec (.ldMemVx 15) (withBytes 0x300 [] 1 2) = .next t := ⟨_, rfl⟩
theorem witness_RegistersChange : (∃ t, exec (.add 0 1) State.reset = .next t) ∧ mayWriteReg (.add 0 1) 1 = false :=
  ⟨⟨_, rfl⟩, by decide⟩
theorem witness_FaultsCome : (∃ t, exec (.ldVxMem 15) (withBytes 4095 [] 0 0) = .next t ∧ t.fault = some (.memoryBounds 4096)) ∧
    (withBytes 4095 [] 0 0).fault = none := ⟨⟨_, rfl, by decide⟩, by decide⟩
/-- The clauses `x ≠ 15` of the arithmetic statements, at the last register that is not VF. -/
theorem witness_NotTheFlagRegister : (14 : Reg) ≠ 15 := by decide
/-- The clause `nn = 0` of the random load. -/
theorem witness_RandomMaskZero : (0 : Byte) = 0 := by decide
theorem witness_SelfJump : (State.reset.placeWord 0x1200).Running ∧ fetch (State.reset.placeWord 0x1200) = .ok 0x1200 ∧
    (0x1200 : Word).toNat = 0x1000 + (State.reset.placeWord 0x1200).pc.toNat := ⟨⟨rfl, rfl⟩, rfl, by decide⟩
/-- 5XYn with n ≠ 0, at both ends of the range. -/
theorem witness_IllegalSkipWord : (0 < 1 ∧ 1 < 16) ∧ 0 < 15 ∧ 15 < 16 := by decide
theorem witness_TimersAnyInstruction : ∃ t, exec (.ldStVx 15) State.reset = .next t := ⟨_, rfl⟩
theorem witness_TimerWrittenZero : State.reset.getV 3 = 0 := by decide
theorem witness_CallFindsRoom : (withStack 15).sp < (withStack 15).params.stackUsable := by decide
theorem witness_CallOverflows : (withStack 16).params.stackUsable ≤ (withStack 16).sp := by decide
theorem witness_Return : (withStack 1).sp ≠ 0 ∧ (withStack 16).sp ≠ 0 ∧ (withStack 0).sp = 0 := by decide
theorem witness_ReturnUndoesCall : (withStack 15).sp < (withStack 15).params.stackUsable ∧
    exec (.call 0x300) (withStack 15) = .next (ran (.call 0x300) (withStack 15)) := ⟨by decide, rfl⟩
theorem witness_Sys : (0x0E1 : Addr12) ≠ 0x0E0 ∧ (0x0E1 : Addr12) ≠ 0x0EE := by decide
theorem witness_MemoryAccess_bounds : 4096 ≤ 4096 ∧ 4095 < 4096 ∧ WriteFaults 4096 (.memoryBounds 4096) :=
  ⟨by decide, by decide, .inl ⟨by decide, rfl⟩⟩
theorem witness_MemoryAccess_font : WriteFaults 0x050 (.fontWrite 0x050) ∧ WriteFaults 0x09F (.fontWrite 0x09F) :=
  ⟨.inr ⟨by decide, by decide, rfl⟩, .inr ⟨by decide, by decide, rfl⟩⟩
theorem witness_MemoryAccess_write : (∀ c, ¬ WriteFaults 0x04F c) ∧ (∀ c, ¬ WriteFaults 0x0A0 c) ∧ (∀ c, ¬ WriteFaults 4095 c) :=
  ⟨writable_of (n := 1) (by omega) 0 (by decide), writable_of (n := 1) (by omega) 0 (by decide),
    writable_of (n := 1) (by omega) 0 (by decide)⟩
theorem witness_EqualMemories : Memory.wf defaultParams [(0x300, 1)] ∧
    ∀ a, Memory.read defaultParams [(0x300, 1)] a = Memory.read defaultParams [(0x300, 1)] a := ⟨by decide, fun _ => rfl⟩
theorem witness_Glyph : State.reset.params.fontIndexMode = .full ∧
    ({ State.reset with params := { defaultParams with fontIndexMode := .lowNibble } } : State).params.fontIndexMode = .lowNibble ∧
    ((withBytes 0 [] 15 0).getV 0).toNat ≤ 15 := by decide
/-- The last three writable addresses, the first fault of each kind, and the clause where two digits are stored first. -/
theorem witness_Bcd : Writable (withBytes 0xFFD [] 9 0).index.toNat 3 ∧
    (Writable (withBytes 0xFFE [] 9 0).index.toNat 2 ∧ WriteFaults ((withBytes 0xFFE [] 9 0).index.toNat + 2) (.memoryBounds 0x1000)) ∧
    (Writable (withBytes 0x04E [] 9 0).index.toNat 2 ∧ WriteFaults ((withBytes 0x04E [] 9 0).index.toNat + 2) (.fontWrite 0x050)) :=
  ⟨writable_of (by decide), ⟨writable_of (by decide), .inl ⟨by decide, rfl⟩⟩,
    writable_of (by decide), .inr ⟨by decide, by decide, rfl⟩⟩
theorem witness_BlockStore : Writable (withBytes 0xFF0 [] 0 0).index.toNat (15 + 1) ∧
    (Writable (withBytes 0xFF1 [] 0 0).index.toNat 15 ∧ WriteFaults ((withBytes 0xFF1 [] 0 0).index.toNat + 15) (.memoryBounds 0x1000)) ∧
    (Writable (withBytes 0x050 [] 0 0).index.toNat 0 ∧ WriteFaults ((withBytes 0x050 [] 0 0).index.toNat + 0) (.fontWrite 0x050)) :=
  ⟨writable_of (by decide), ⟨writable_of (by decide), .inl ⟨by decide, rfl⟩⟩,
    writable_of (by decide), .inr ⟨by decide, by decide, rfl⟩⟩
theorem witness_BlockLoad : (withBytes 0xFF0 [] 0 0).index.toNat + 15 < 4096 ∧
    ((∀ j, j < 15 → (withBytes 0xFF1 [] 0 0).index.toNat + j < 4096) ∧ 4096 ≤ (withBytes 0xFF1 [] 0 0).index.toNat + 15) ∧
    4096 ≤ (withBytes 0xFFFF [] 0 0).index.toNat + 0 := by decide
theorem witness_BlockRoundTrip : ∃ t u : State, Writable (withBytes 0x300 [] 1 2).index.toNat (1 + 1) ∧
    exec (.ldMemVx 1) (withBytes 0x300 [] 1 2) = .next t ∧ u.index = (withBytes 0x300 [] 1 2).index ∧
    ∀ a, u.byteAt a = t.byteAt a :=
  ⟨_, (ran (.ldMemVx 1) (withBytes 0x300 [] 1 2)).setIndex 0x300, writable_of (by decide), rfl, rfl, fun _ => rfl⟩
theorem witness_NextFetch : Writable (withBytes 0x200 [] 0x12 0).index.toNat (1 + 1) ∧
    (∃ t, exec (.ldMemVx 1) (withBytes 0x200 [] 0x12 0) = .next t) ∧ (1 : Reg) ≤ 1 ∧ (1 : Reg).val = (0 : Reg).val + 1 ∧
    (withBytes 0x200 [] 0x12 0).pc.toNat = (withBytes 0x200 [] 0x12 0).index.toNat + (0 : Reg).val :=
  ⟨writable_of (by decide), ⟨_, rfl⟩, by decide⟩
/-- The last sprite that fits in memory, and the empty one with I beyond it. -/
theorem witness_Draw : (withBytes 4081 [] 0 0).index.toNat + (15 : Fin 16).val ≤ 4096 ∧ (0 : Fin 16).val = 0 := by decide
/-- The two conclusions about VF: a sprite that hits a lit cell, and one on a clear display. -/
theorem witness_DrawHits : SpriteHits (ran (.drw 0 1 1) (withBytes 0x300 [0xFF] 60 0)) 60 0 1 ∧
    ¬ SpriteHits (withBytes 0x300 [0xFF] 60 0) 60 0 1 := by
  refine ⟨⟨60, 0, by decide, by decide, by decide, by decide, by decide, by decide, by decide, by decide⟩, ?_⟩
  rintro ⟨x, y, hx, hy, h, -⟩
  have : (withBytes 0x300 [0xFF] 60 0).disp.cell x y = false := cell_clearDisplay x y
  rw [this] at h; cases h
theorem witness_DrawFault : 1 < (15 : Fin 16).val ∧ (∀ j, j < 1 → (withBytes 4095 [] 0 0).index.toNat + j < 4096) ∧
    4096 ≤ (withBytes 4095 [] 0 0).index.toNat + 1 := by decide
theorem witness_DrawTwice : ∃ t, (withBytes 0x300 [0xFF] 60 0).index.toNat + (1 : Fin 16).val ≤ 4096 ∧
    exec (.drw 0 1 1) (withBytes 0x300 [0xFF] 60 0) = .next t ∧ t.getV 0 = (withBytes 0x300 [0xFF] 60 0).getV 0 ∧
    t.getV 1 = (withBytes 0x300 [0xFF] 60 0).getV 1 := ⟨_, by decide, rfl, by decide, by decide⟩
theorem witness_OthersKeepTheDisplay : (∃ t, exec (.add 0 1) State.reset = .next t) ∧ Instr.add 0 1 ≠ .cls ∧
    ∀ x y n, Instr.add 0 1 ≠ .drw x y n := ⟨⟨_, rfl⟩, by decide, by decide⟩
theorem witness_StepChangesTheDisplay : (hostCall .step ((withBytes 0x300 [0xFF] 0 0).placeWord 0xD011)).1.disp ≠
    ((withBytes 0x300 [0xFF] 0 0).placeWord 0xD011).disp := by decide
theorem witness_OtherCallsKeepTheDisplay : HostCall.press 3 ≠ .step ∧ HostCall.press 3 ≠ .reset := by decide
theorem witness_DisplayView : 63 < 64 ∧ 31 < 32 := by decide
theorem witness_SoundTimer : (∃ t, exec (.ldVxDt 0) State.reset = .next t) ∧ ∀ x, Instr.ldVxDt 0 ≠ .ldStVx x :=
  ⟨⟨_, rfl⟩, by decide⟩
/-- V[X] = 15 is the last key, 16 the first value above. -/
theorem witness_KeySkips : ((withWord 0 15 16).getV 0).toNat = (15 : Key).val ∧ 15 < ((withWord 0 15 16).getV 1).toNat := by decide
theorem witness_InstructionsKeepTheKeys : ∃ t, exec (.ldVxK 2) State.reset = .next t := ⟨_, rfl⟩
theorem witness_OthersDoNotReadTheKeys : (∃ t, exec (.ldVxDt 0) State.reset = .next t) ∧
    ∀ x, Instr.ldVxDt 0 ≠ .skp x ∧ Instr.ldVxDt 0 ≠ .sknp x ∧ Instr.ldVxDt 0 ≠ .ldVxK x := ⟨⟨_, rfl⟩, by decide⟩
theorem witness_WaitTakesLowest : (State.reset.setKey 15 true).key 15 = true ∧
    ∀ j : Key, j < 15 → (State.reset.setKey 15 true).key j = false := by decide
theorem witness_WaitRepeats : (withWord 0xF20A 0 0).Running ∧ fetch (withWord 0xF20A 0 0) = .ok 0xF20A ∧
    decode 0xF20A = .instr (.ldVxK 2) ∧ ∀ k, (withWord 0xF20A 0 0).key k = false := ⟨⟨rfl, rfl⟩, rfl, by decide⟩
/-- K8 of 95_test_vectors.md: key 2 held, key 9 pressed; and the case that the pressed key is the lowest. -/
theorem witness_PressSatisfies : ((withWord 0xF20A 0 0).setKey 2 true).Running ∧
    fetch ((withWord 0xF20A 0 0).setKey 2 true) = .ok 0xF20A ∧ decode 0xF20A = .instr (.ldVxK 2) ∧
    ((2 : Key) = 9 ∨ ((withWord 0xF20A 0 0).setKey 2 true).key 2 = true) ∧ (2 : Key) ≤ 9 ∧
    ∀ j : Key, j < 2 → ((withWord 0xF20A 0 0).setKey 2 true).key j = false := ⟨⟨rfl, rfl⟩, rfl, by decide⟩
theorem witness_PressDoesNothingMore : (¬ (State.reset.latch 3).Running) ∧
    (fetch (withWord 0x6000 0 0) = .ok 0x6000 ∧ decode 0x6000 = .instr (.ldImm 0 0)) :=
  ⟨fun h => absurd h.2 (by decide), rfl, by decide⟩
theorem witness_Release : (State.reset.latch 3).latched = true ∧ (4 : Key) ≠ (State.reset.latch 3).latchedKey ∧
    (3 : Key) = (State.reset.latch 3).latchedKey := by decide
/-- Every kind of call but reset and the release of key 9, the neighbouring release among them. -/
theorem witness_LatchedMode : (withWord 0xF20A 0 0).Running ∧
    press 9 (withWord 0xF20A 0 0) = ((press 9 (withWord 0xF20A 0 0)).1, true) ∧
    HostCall.release 9 ∉ [HostCall.step, .tickTimers, .press 8, .release 8, .load [1], .display] ∧
    HostCall.reset ∉ [HostCall.step, .tickTimers, .press 8, .release 8, .load [1], .display] :=
  ⟨⟨rfl, rfl⟩, rfl, by decide⟩
theorem witness_ResetValues : ∃ u : State, (hostCall .reset u).1 = (hostCall .reset (withStack 3)).1 ∧ u.params = defaultParams :=
  ⟨withStack 3, rfl, rfl⟩
theorem witness_Load : (List.replicate 3584 (0xAB : Byte)).length ≤ 3584 ∧ 3584 < (List.replicate 3585 (0xAB : Byte)).length := by
  simp only [List.length_replicate]; decide
theorem witness_StepKeepsTheInvariant : State.reset.Inv ∧ step State.reset = .next (stepState State.reset) :=
  ⟨⟨by decide, by decide, by decide, by decide⟩, rfl⟩
/-- A state no run from reset is needed for: latched, with a nested call and a changed byte. -/
theorem witness_Invariant : (((withStack 16).setKey 5 true).latch 5 |>.setMem [(0x300, 1)]).Inv :=
  ⟨by decide, by decide, by decide, by decide⟩

end Sys2Proof.Tests
end

section
/-! PROOFS. What a machine reads as right after construction or reset (R36, R250, R251). -/

namespace Sys2Proof.Machine

/-- A freshly constructed machine whose count of draws stands at `n`: the one form that construction and reset
share (log entry 2). -/
def State.constructAt (p : Config.Params) (n : Nat) : State := { State.construct p with draws := n }

theorem construct_eq_constructAt (p : Config.Params) : State.construct p = State.constructAt p 0 := rfl

theorem hostCall_reset_eq_constructAt (u : State) :
    (hostCall .reset u).1 = State.constructAt u.params u.draws := rfl

section
variable (p : Config.Params) (n : Nat)

@[simp] theorem constructAt_getV (r : Reg) : (State.constructAt p n).getV r = 0 :=
  Vector.getElem_replicate r.isLt

@[simp] theorem constructAt_stack (j : Fin 16) : (State.constructAt p n).stack[j.val] = 0 :=
  Vector.getElem_replicate j.isLt

@[simp] theorem constructAt_key (k : Key) : (State.constructAt p n).key k = false :=
  Vector.getElem_replicate k.isLt

@[simp] theorem constructAt_disp : (State.constructAt p n).disp = clearDisplay := rfl

/-- No byte is listed, so every address reads as its reset contents. -/
@[simp] theorem constructAt_byteAt (a : Nat) : (State.constructAt p n).byteAt a = resetByte p a :=
  Memory.read_nil p a

end

/-- Settles O55: construction and reset give the same machine but for its count of draws, which no clause reads;
its vectors are constant, and its empty memory reads as FONT_DATA in the font and 0 elsewhere. -/
theorem resetGivesEveryResetValue : Obligations.ResetGivesEveryResetValue := by
  intro p s hs
  obtain ⟨n, rfl⟩ : ∃ n, s = State.constructAt p n := by
    obtain rfl | ⟨u, rfl, rfl⟩ := hs
    · exact ⟨0, construct_eq_constructAt p⟩
    · exact ⟨u.draws, hostCall_reset_eq_constructAt u⟩
  refine ⟨constructAt_getV p n, rfl, rfl, constructAt_stack p n, rfl, rfl, rfl, constructAt_key p n, rfl, rfl,
    fun x y => ?unlit, rfl, fun k => ?font, fun a ha => ?zero⟩
  case unlit => rw [constructAt_disp, cell_clearDisplay]
  case font => rw [constructAt_byteAt, resetByte_font]
  case zero => rw [constructAt_byteAt, resetByte_zero p a ha]

end Sys2Proof.Machine
end

section
/-! PROOFS. Which word LD VX, NN has, and what its one register write does and leaves (R84, R110). -/

namespace Sys2Proof

/-- The word of format F_XNN from its value (R83). -/
theorem ofNat_eq_formXNN {w : Nat} {op : BitVec 4} {x : Reg} {nn : Byte}
    (h : w = op.toNat * 4096 + x.val * 256 + nn.toNat) : BitVec.ofNat 16 w = formXNN op x nn := by
  rw [h, ← formXNN_toNat, BitVec.ofNat_toNat, BitVec.setWidth_eq]

theorem decode_formXNN_ldImm (x : Reg) (nn : Byte) : decode (formXNN 0x6 x nn) = .instr (.ldImm x nn) := by
  simp [decode]

end Sys2Proof

namespace Sys2Proof.Machine

theorem exec_ldImm (x : Reg) (nn : Byte) (s : State) : exec (.ldImm x nn) s = .next (s.setV x nn) := rfl

theorem decodesTo_ldImm (x : Reg) (nn : Byte) : DecodesTo (0x6000 + 0x100 * x.val + nn.toNat) (.ldImm x nn) := by
  have hw : 0x6000 + 0x100 * x.val + nn.toNat = (0x6 : BitVec 4).toNat * 4096 + x.val * 256 + nn.toNat := by
    rw [show (0x6 : BitVec 4).toNat = 6 from rfl]; omega
  rw [DecodesTo, ofNat_eq_formXNN hw, decode_formXNN_ldImm]

theorem getV_setV_same (s : State) (x : Reg) (b : Byte) : (s.setV x b).getV x = b := by simp

theorem setV_regsKeptBut (s : State) (x : Reg) (b : Byte) : RegsKeptBut [x] s (s.setV x b) := by
  intro r hr
  rw [State.getV_setV, if_neg (List.ne_of_not_mem_cons hr)]

/-- Settles O16: the word is format F_XNN with opcode 6, and the instruction is one write of V[X], whatever X is. -/
theorem loadImmediateSetsTheRegister : Obligations.LoadImmediateSetsTheRegister := fun x nn s =>
  ⟨decodesTo_ldImm x nn, s.setV x nn, exec_ldImm x nn s, getV_setV_same s x nn, setV_regsKeptBut s x nn,
    setV_onlyChanges s x nn⟩

end Sys2Proof.Machine
end

section
/-! PROOFS. Which word JP NNN has, where it goes, and why a jump to its own address repeats for ever (R84, R130, R135). -/

namespace Sys2Proof

/-- The word of format F_NNN from its value (R83). -/
theorem ofNat_eq_formNNN {w : Nat} {op : BitVec 4} {nnn : Addr12} (h : w = op.toNat * 4096 + nnn.toNat) :
    BitVec.ofNat 16 w = formNNN op nnn := by
  rw [h, ← formNNN_toNat, BitVec.ofNat_toNat, BitVec.setWidth_eq]

theorem decode_formNNN_jp (nnn : Addr12) : decode (formNNN 0x1 nnn) = .instr (.jp nnn) := by
  simp [decode]

end Sys2Proof

namespace Sys2Proof.Machine

theorem addrOperand_toNat (nnn : Addr12) : (addrOperand nnn).toNat = nnn.toNat :=
  BitVec.toNat_setWidth_of_le (by decide)

/-- A word of 12 significant bits is its own address immediate, zero-extended (R82). -/
theorem addrOperand_nnnField {w : Word} (h : w.toNat < 4096) : addrOperand (nnnField w) = w :=
  BitVec.eq_of_toNat_eq (by rw [addrOperand_toNat, nnnField_toNat, Nat.mod_eq_of_lt h])

theorem exec_jp (nnn : Addr12) (s : State) : exec (.jp nnn) s = .next (s.setPc (addrOperand nnn)) := rfl

theorem decodesTo_jp (nnn : Addr12) : DecodesTo (0x1000 + nnn.toNat) (.jp nnn) := by
  have hw : 0x1000 + nnn.toNat = (0x1 : BitVec 4).toNat * 4096 + nnn.toNat := rfl
  rw [DecodesTo, ofNat_eq_formNNN hw, decode_formNNN_jp]

theorem advancePc_setPc (s : State) (w : Word) : s.advancePc.setPc w = s.setPc w := rfl

/-- A fetch succeeds only where both bytes of the word lie in memory (R55). -/
theorem pc_lt_of_fetch_ok {s : State} {w : Word} (h : fetch s = .ok w) : s.pc.toNat + 1 < Config.memSize := by
  by_contra hp
  have hfault := fetch_error (Nat.not_lt.1 hp)
  rw [h] at hfault
  cases hfault

/-- A step over JP NNN sets pc to NNN, whatever pc the step has advanced to, and does nothing else (R130, R135). -/
theorem step_jp {s : State} {w : Word} {nnn : Addr12} (hr : s.Running) (hf : fetch s = .ok w)
    (hd : decode w = .instr (.jp nnn)) : step s = .next (s.setPc (addrOperand nnn)) := by
  rw [step_running hr hf, runWord_instr exec hd, exec_jp, advancePc_setPc]

/-- A jump to its own address steps to the very same state: the fetch puts pc below 4096, so that NNN is all of pc. -/
theorem step_selfJump {s : State} {w : Word} (hr : s.Running) (hf : fetch s = .ok w)
    (hw : w.toNat = 0x1000 + s.pc.toNat) : step s = .next s := by
  have hpc : s.pc.toNat < 4096 := Nat.lt_of_succ_lt (pc_lt_of_fetch_ok hf)
  have hd : decode w = .instr (.jp (nnnField s.pc)) := by
    have hdec := decodesTo_jp (nnnField s.pc)
    rwa [DecodesTo, nnnField_toNat, Nat.mod_eq_of_lt hpc, ← hw, BitVec.ofNat_toNat, BitVec.setWidth_eq] at hdec
  rw [step_jp hr hf hd, addrOperand_nnnField hpc, State.setPc_pc_self]

/-- A state that steps to itself is where every run from it ends. -/
theorem run_of_step_self {s : State} (h : step s = .next s) (n : Nat) : Sys2Proof.core.run n s = .next s := by
  induction n with
  | zero => rfl
  | succ n ih => rw [run_succ h, ih]

/-- Settles O24: the word is format F_NNN with opcode 1 and the instruction is one write of pc; a jump to its own
address is a fixed point of the step, hence of every run. -/
theorem jumpSetsPcAndSelfJumpIsFixed : Obligations.JumpSetsPcAndSelfJumpIsFixed :=
  ⟨fun nnn s => ⟨decodesTo_jp nnn, s.setPc (addrOperand nnn), exec_jp nnn s, addrOperand_toNat nnn,
      setPc_onlyChanges s _⟩,
    fun _ _ hr hf hw => run_of_step_self (step_selfJump hr hf hw)⟩

end Sys2Proof.Machine
end

section
/-! PROOFS. Which word LD I, NNN has, and why its one write of I stays below 0x1000 (R84, R150). -/

namespace Sys2Proof

theorem decode_formNNN_ldI (nnn : Addr12) : decode (formNNN 0xA nnn) = .instr (.ldI nnn) := by
  simp [decode]

end Sys2Proof

namespace Sys2Proof.Machine

theorem exec_ldI (nnn : Addr12) (s : State) : exec (.ldI nnn) s = .next (s.setIndex (addrOperand nnn)) := rfl

theorem decodesTo_ldI (nnn : Addr12) : DecodesTo (0xA000 + nnn.toNat) (.ldI nnn) := by
  have hw : 0xA000 + nnn.toNat = (0xA : BitVec 4).toNat * 4096 + nnn.toNat := rfl
  rw [DecodesTo, ofNat_eq_formNNN hw, decode_formNNN_ldI]

theorem setIndex_addrOperand_index_toNat (s : State) (nnn : Addr12) :
    (s.setIndex (addrOperand nnn)).index.toNat = nnn.toNat := by
  rw [State.setIndex_index, addrOperand_toNat]

/-- An address immediate has 12 bits, so the register it is loaded into holds at most 0xFFF. -/
theorem setIndex_addrOperand_index_le (s : State) (nnn : Addr12) :
    (s.setIndex (addrOperand nnn)).index.toNat ≤ 0xFFF := by
  rw [setIndex_addrOperand_index_toNat]
  exact Nat.le_of_lt_succ nnn.isLt

/-- Settles O33: the word is format F_NNN with opcode A, and the instruction is one write of I with a zero-extended
12-bit immediate. -/
theorem loadIndexSetsI : Obligations.LoadIndexSetsI := fun nnn s =>
  ⟨decodesTo_ldI nnn, s.setIndex (addrOperand nnn), exec_ldI nnn s, setIndex_addrOperand_index_toNat s nnn,
    setIndex_addrOperand_index_le s nnn, setIndex_onlyChanges s _⟩

end Sys2Proof.Machine
end

section
/-! PROOFS. What CLS does, which instructions and host calls leave the display alone and are blind to it, and how the
display view lists its cells (R84, R160, R162, R163). -/

namespace Sys2Proof.Machine

/-! ### CLS (R160) -/

theorem exec_cls (s : State) : exec .cls s = .next (s.setDisp clearDisplay) := rfl

theorem decodesTo_cls : DecodesTo 0x00E0 .cls := by
  unfold DecodesTo; decide

/-- Settles O40: CLS is one write of the display, with a grid that has no lit cell. -/
theorem clearUnlightsEveryCell : Obligations.ClearUnlightsEveryCell := fun s =>
  ⟨decodesTo_cls, s.setDisp clearDisplay, exec_cls s, cell_clearDisplay, setDisp_onlyChanges s _⟩

/-! ### The display view (R162) -/

theorem displayView_eq_flatten (s : State) : displayView s = s.disp.flatten.toList := by
  simp only [displayView, Vector.flatten, List.flatMap_def, Vector.toList_mk, Array.toList_flatten, Array.toList_map,
    List.map_map]
  rfl

theorem displayView_getElem? (s : State) {x y : Nat} (hx : x < 64) (hy : y < 32) :
    (displayView s)[y * 64 + x]? = some (s.disp.cell x y) := by
  have hlt : y * 64 + x < 32 * 64 := by omega
  have hdiv : (y * 64 + x) / 64 = y := by omega
  have hmod : (y * 64 + x) % 64 = x := by omega
  rw [displayView_eq_flatten, cell_eq _ hx hy, Vector.getElem?_toList, Vector.getElem?_eq_getElem hlt,
    Vector.getElem_flatten]
  simp only [hdiv, hmod]

/-- Settles O45: the view is the grid's rows laid end to end, 64 cells each. -/
theorem displayViewIsRowMajor : Obligations.DisplayViewIsRowMajor := fun s =>
  ⟨rfl, by rw [displayView_eq_flatten, Vector.length_toList], fun _ _ => displayView_getElem? s⟩

/-! ### Instructions blind to the display (R163) -/

/-- `run` answers a next state, and with another display in the machine the same one with that display in it. -/
def IgnoresDisplay (run : State → Host.Outcome State Fault Refusal) : Prop :=
  ∀ (s : State) (d : Display), ∃ t, run s = .next t ∧ run (s.setDisp d) = .next (t.setDisp d)

namespace IgnoresDisplay

variable {run : State → Host.Outcome State Fault Refusal}

theorem setDisp_next (h : IgnoresDisplay run) {s t : State} (e : run s = .next t) (d : Display) :
    run (s.setDisp d) = .next (t.setDisp d) := by
  obtain ⟨u, hu, hd⟩ := h s d
  obtain rfl := Host.Outcome.next.inj (hu.symm.trans e)
  exact hd

/-- What ignores the display keeps it: put the machine's own display in, and the answer must not change. -/
theorem disp_eq (h : IgnoresDisplay run) {s t : State} (e : run s = .next t) : t.disp = s.disp := by
  have own : run s = .next (t.setDisp s.disp) := h.setDisp_next e s.disp
  rw [Host.Outcome.next.inj (e.symm.trans own)]
  rfl

end IgnoresDisplay

theorem skipIf_setDisp (s : State) (taken : Bool) (d : Display) :
    (s.setDisp d).skipIf taken = (s.skipIf taken).setDisp d := by
  cases taken <;> rfl

theorem call_ignoresDisplay (w : Word) : IgnoresDisplay (·.call w) := by
  intro s d
  by_cases h : s.sp < s.params.stackUsable
  · obtain ⟨_, _, e⟩ := call_next w h
    obtain ⟨_, _, e'⟩ := call_next (s := s.setDisp d) w h
    exact ⟨_, e, e'⟩
  · have h : s.params.stackUsable ≤ s.sp := Fin.not_lt.1 h
    exact ⟨_, call_full w h, call_full (s := s.setDisp d) w h⟩

theorem popPc_ignoresDisplay : IgnoresDisplay State.popPc := by
  intro s d
  by_cases h : s.sp = 0
  · exact ⟨_, popPc_empty h, popPc_empty (s := s.setDisp d) h⟩
  · obtain ⟨_, _, e⟩ := popPc_next h
    obtain ⟨_, _, e'⟩ := popPc_next (s := s.setDisp d) h
    exact ⟨_, e, e'⟩

/-- SKP and SKNP in one form: the fault of the key operand, or a skip that its key decides (R180, R181). -/
def keySkip (operand : Except Fault Key) (taken : Key → Bool) (s : State) : Host.Outcome State Fault Refusal :=
  match operand with
  | .error c => raise c s
  | .ok k => .next (s.skipIf (taken k))

theorem exec_skp_eq_keySkip (x : Reg) (s : State) :
    exec (.skp x) s = keySkip (keyOperand (s.getV x)) s.key s := rfl

theorem exec_sknp_eq_keySkip (x : Reg) (s : State) :
    exec (.sknp x) s = keySkip (keyOperand (s.getV x)) (fun k => !s.key k) s := rfl

theorem keySkip_setDisp (operand : Except Fault Key) (taken : Key → Bool) (s : State) (d : Display) :
    ∃ t, keySkip operand taken s = .next t ∧ keySkip operand taken (s.setDisp d) = .next (t.setDisp d) := by
  cases operand with
  | error c => exact ⟨_, rfl, rfl⟩
  | ok k => exact ⟨_, rfl, congrArg _ (skipIf_setDisp s (taken k) d)⟩

theorem exec_skp_ignoresDisplay (x : Reg) : IgnoresDisplay (exec (.skp x)) := by
  intro s d
  rw [exec_skp_eq_keySkip, exec_skp_eq_keySkip]
  exact keySkip_setDisp (keyOperand (s.getV x)) s.key s d

theorem exec_sknp_ignoresDisplay (x : Reg) : IgnoresDisplay (exec (.sknp x)) := by
  intro s d
  rw [exec_sknp_eq_keySkip, exec_sknp_eq_keySkip]
  exact keySkip_setDisp (keyOperand (s.getV x)) (fun k => !s.key k) s d

theorem execLdVxK_ignoresDisplay (x : Reg) : IgnoresDisplay (execLdVxK x) := by
  intro s d
  have hkey : (s.setDisp d).lowestKey = s.lowestKey := rfl
  unfold execLdVxK
  rw [hkey]
  cases s.lowestKey <;> exact ⟨_, rfl, rfl⟩

/-- Whether a store faults depends on its addresses alone, and its bytes go to memory alone (R54). -/
theorem storeBytes_finish_setDisp (bs : List Byte) (a : Nat) (s : State) (d : Display) {k : State → State}
    (hk : ∀ u : State, k (u.setDisp d) = (k u).setDisp d) :
    ∃ t, (storeBytes bs a s).finish k = .next t ∧
      (storeBytes bs a (s.setDisp d)).finish k = .next (t.setDisp d) := by
  rcases storeBytes_cases bs a s with ⟨hw, e⟩ | ⟨j, c, hj, hw, hc, e⟩
  · rw [e, storeBytes_done (s.setDisp d) hw]
    exact ⟨_, rfl, congrArg Host.Outcome.next (hk (s.setMem _))⟩
  · rw [e, storeBytes_raised (s.setDisp d) hj hw hc]
    exact ⟨_, rfl, rfl⟩

theorem loadedFrom_setDisp (rs : List Reg) (a : Nat) (s : State) (d : Display) :
    State.loadedFrom rs a (s.setDisp d) = (State.loadedFrom rs a s).setDisp d := by
  induction rs generalizing a s with
  | nil => rfl
  | cons r rs ih => exact ih (a + 1) (s.setV r (s.byteAt a))

/-- Whether a load faults depends on its addresses alone, and it reads memory alone (R53). -/
theorem loadRegs_finish_setDisp (rs : List Reg) (a : Nat) (s : State) (d : Display) {k : State → State}
    (hk : ∀ u : State, k (u.setDisp d) = (k u).setDisp d) :
    ∃ t, (loadRegs rs a s).finish k = .next t ∧ (loadRegs rs a (s.setDisp d)).finish k = .next (t.setDisp d) := by
  rcases loadRegs_cases rs a s with ⟨hm, e⟩ | ⟨j, hj, hm, hb, e⟩
  · rw [e, loadRegs_done (s.setDisp d) hm, loadedFrom_setDisp]
    exact ⟨_, rfl, congrArg _ (hk _)⟩
  · rw [e, loadRegs_raised (s.setDisp d) hj hm hb, loadedFrom_setDisp]
    exact ⟨_, rfl, rfl⟩

/-- An instruction that is neither CLS nor DRW: most are one update of other fields, the rest a shared operation. -/
theorem exec_ignoresDisplay {i : Instr} (hcls : i ≠ .cls) (hdrw : ∀ x y n, i ≠ .drw x y n) :
    IgnoresDisplay (exec i) := by
  cases i with
  | cls => exact absurd rfl hcls
  | drw x y n => exact absurd rfl (hdrw x y n)
  | ret => exact popPc_ignoresDisplay
  | call nnn => exact call_ignoresDisplay (addrOperand nnn)
  | seImm | sneImm | seReg | sneReg => exact fun s d => ⟨_, rfl, congrArg _ (skipIf_setDisp s _ d)⟩
  | skp x => exact exec_skp_ignoresDisplay x
  | sknp x => exact exec_sknp_ignoresDisplay x
  | ldVxK x => exact execLdVxK_ignoresDisplay x
  | ldBVx | ldMemVx => exact fun s d => storeBytes_finish_setDisp _ _ s d fun _ => rfl
  | ldVxMem => exact fun s d => loadRegs_finish_setDisp _ _ s d fun _ => rfl
  | sys | jp | jpV0 | ldImm | addImm | mov | or | and | xor | add | sub | shr | subn | shl | rnd | ldI | addIVx | ldFVx
  | ldVxDt | ldDtVx | ldStVx => exact fun s d => ⟨_, rfl, rfl⟩

/-- CLS overwrites every cell, so it does not matter what they held. -/
theorem exec_cls_setDisp (s : State) (d : Display) : exec .cls (s.setDisp d) = exec .cls s := rfl

/-! ### Steps and host calls (R163) -/

/-- A step that changes the display fetched a word and ran it, and the word was CLS or DRW. -/
theorem stepState_changes_disp {s : State} (h : (stepState s).disp ≠ s.disp) :
    ∃ w, fetch s = .ok w ∧ (decode w = .instr .cls ∨ ∃ x y n, decode w = .instr (.drw x y n)) := by
  rcases step_cases s with ⟨c, -, e⟩ | ⟨-, -, e⟩ | ⟨-, -, e⟩ | ⟨-, w, -, -, e⟩ | ⟨-, w, i, hf, hd, e⟩
  · exact absurd (by rw [stepState, e]) h
  · exact absurd (by rw [stepState_next e]) h
  · exact absurd (by rw [stepState_next e]; rfl) h
  · exact absurd (by rw [stepState_next e]; rfl) h
  · refine ⟨w, hf, ?_⟩
    rw [hd]
    by_contra hother
    simp only [Decoded.instr.injEq, not_or, not_exists] at hother
    obtain ⟨hcls, hdrw⟩ := hother
    have blind := exec_ignoresDisplay hcls hdrw
    obtain ⟨t, ht, -⟩ := blind s.advancePc s.disp
    rw [stepState_next (e.trans ht)] at h
    exact h ((blind.disp_eq ht).trans s.advancePc_disp)

@[simp] theorem press_disp (k : Key) (s : State) : (press k s).1.disp = s.disp := by
  unfold press
  dsimp only
  split
  · rfl
  · split <;> rfl

@[simp] theorem release_disp (k : Key) (s : State) : (release k s).disp = s.disp := by
  unfold release
  dsimp only
  split <;> rfl

@[simp] theorem load_disp (bytes : List Byte) (s : State) : (load bytes s).1.disp = s.disp := by
  unfold load
  split <;> rfl

theorem hostCall_disp {c : HostCall} (hstep : c ≠ .step) (hreset : c ≠ .reset) (s : State) :
    (hostCall c s).1.disp = s.disp := by
  cases c with
  | step => exact absurd rfl hstep
  | reset => exact absurd rfl hreset
  | tickTimers | display => rfl
  | press k => exact press_disp k s
  | release k => exact release_disp k s
  | load bytes => exact load_disp bytes s

theorem hostCall_reset_cell (s : State) (x y : Nat) : (hostCall .reset s).1.disp.cell x y = false := by
  rw [hostCall_reset_eq_constructAt, constructAt_disp, cell_clearDisplay]

/-- Settles O44: an instruction that does the same with any display in the machine also keeps the display it has, so
one fact about each instruction gives both halves, and with it the step. -/
theorem onlyClsDrwAndResetTouchTheDisplay : Obligations.OnlyClsDrwAndResetTouchTheDisplay :=
  ⟨fun _ _ _ ht hcls hdrw =>
      ⟨(exec_ignoresDisplay hcls hdrw).disp_eq ht, (exec_ignoresDisplay hcls hdrw).setDisp_next ht⟩,
    exec_cls_setDisp, fun _ => stepState_changes_disp, fun _ s hstep hreset => hostCall_disp hstep hreset s,
    hostCall_reset_cell⟩

end Sys2Proof.Machine
end

section
/-! PROOFS. Which words the timer instructions have, what each writes, what a timer at 0 does at a tick, and why no
instruction reads ST (R84, R170 to R172, R214, R215). -/

namespace Sys2Proof

theorem decode_formXNN_ldVxDt (x : Reg) : decode (formXNN 0xF x 0x07) = .instr (.ldVxDt x) := by
  simp [decode, decodeF]

theorem decode_formXNN_ldDtVx (x : Reg) : decode (formXNN 0xF x 0x15) = .instr (.ldDtVx x) := by
  simp [decode, decodeF]

theorem decode_formXNN_ldStVx (x : Reg) : decode (formXNN 0xF x 0x18) = .instr (.ldStVx x) := by
  simp [decode, decodeF]

end Sys2Proof

namespace Sys2Proof.Machine

/-! ### Words and writes (R84, R170 to R172) -/

/-- A word of format F_X from its value: `k` gives opcode F and NN, and X stands between them (R83). -/
theorem decodesTo_of_decode_formXNN {x : Reg} {nn : Byte} {i : Instr} {k : Nat} (hk : k = 0xF000 + nn.toNat)
    (h : decode (formXNN 0xF x nn) = .instr i) : DecodesTo (k + 0x100 * x.val) i := by
  have hw : k + 0x100 * x.val = (0xF : BitVec 4).toNat * 4096 + x.val * 256 + nn.toNat := by
    rw [hk, show (0xF : BitVec 4).toNat = 15 from rfl]; omega
  rw [DecodesTo, ofNat_eq_formXNN hw, h]

theorem decodesTo_ldVxDt (x : Reg) : DecodesTo (0xF007 + 0x100 * x.val) (.ldVxDt x) :=
  decodesTo_of_decode_formXNN rfl (decode_formXNN_ldVxDt x)

theorem decodesTo_ldDtVx (x : Reg) : DecodesTo (0xF015 + 0x100 * x.val) (.ldDtVx x) :=
  decodesTo_of_decode_formXNN rfl (decode_formXNN_ldDtVx x)

theorem decodesTo_ldStVx (x : Reg) : DecodesTo (0xF018 + 0x100 * x.val) (.ldStVx x) :=
  decodesTo_of_decode_formXNN rfl (decode_formXNN_ldStVx x)

theorem exec_ldVxDt (x : Reg) (s : State) : exec (.ldVxDt x) s = .next (s.setV x s.dt) := rfl

theorem exec_ldDtVx (x : Reg) (s : State) : exec (.ldDtVx x) s = .next (s.setDt (s.getV x)) := rfl

theorem exec_ldStVx (x : Reg) (s : State) : exec (.ldStVx x) s = .next (s.setSt (s.getV x)) := rfl

/-! ### A tick of a timer at 0 (R214, R215) -/

theorem tickTimers_dt_of_zero (s : State) (h : s.dt = 0) : (tickTimers s).1.dt = 0 := if_pos h

theorem tickTimers_silent_of_zero (s : State) (h : s.st = 0) : (tickTimers s).2 = false :=
  decide_eq_false (not_not_intro h)

/-! ### Nothing reads ST (R172) -/

/-- `run` answers a next state, and with another ST in the machine one that differs from it in ST at most. -/
def IgnoresSoundTimer (run : State → Host.Outcome State Fault Refusal) : Prop :=
  ∀ (s : State) (b : Byte), ∃ t u, run s = .next t ∧ run (s.setSt b) = .next u ∧ u.setSt t.st = t

theorem IgnoresSoundTimer.next_setSt {run : State → Host.Outcome State Fault Refusal} (h : IgnoresSoundTimer run)
    {s t : State} (e : run s = .next t) (b : Byte) : ∃ u, run (s.setSt b) = .next u ∧ u.setSt t.st = t := by
  obtain ⟨t', u, ht, hu, hst⟩ := h s b
  obtain rfl := Host.Outcome.next.inj (ht.symm.trans e)
  exact ⟨u, hu, hst⟩

theorem skipIf_setSt_setSt (s : State) (taken : Bool) (b : Byte) :
    ((s.setSt b).skipIf taken).setSt (s.skipIf taken).st = s.skipIf taken := by
  cases taken <;> rfl

theorem keySkip_setSt (operand : Except Fault Key) (taken : Key → Bool) (s : State) (b : Byte) :
    ∃ t u, keySkip operand taken s = .next t ∧ keySkip operand taken (s.setSt b) = .next u ∧ u.setSt t.st = t := by
  cases operand with
  | error c => exact ⟨_, _, rfl, rfl, rfl⟩
  | ok k => exact ⟨_, _, rfl, rfl, skipIf_setSt_setSt s (taken k) b⟩

theorem call_ignoresSoundTimer (w : Word) : IgnoresSoundTimer (·.call w) := by
  intro s b
  by_cases h : s.sp < s.params.stackUsable
  · obtain ⟨_, _, e⟩ := call_next w h
    obtain ⟨_, _, e'⟩ := call_next (s := s.setSt b) w h
    exact ⟨_, _, e, e', rfl⟩
  · have h : s.params.stackUsable ≤ s.sp := Fin.not_lt.1 h
    exact ⟨_, _, call_full w h, call_full (s := s.setSt b) w h, rfl⟩

theorem popPc_ignoresSoundTimer : IgnoresSoundTimer State.popPc := by
  intro s b
  by_cases h : s.sp = 0
  · exact ⟨_, _, popPc_empty h, popPc_empty (s := s.setSt b) h, rfl⟩
  · obtain ⟨_, _, e⟩ := popPc_next h
    obtain ⟨_, _, e'⟩ := popPc_next (s := s.setSt b) h
    exact ⟨_, _, e, e', rfl⟩

/-- The keys alone decide whether FX0A waits (R182). -/
theorem execLdVxK_ignoresSoundTimer (x : Reg) : IgnoresSoundTimer (execLdVxK x) := by
  intro s b
  have hkey : (s.setSt b).lowestKey = s.lowestKey := rfl
  unfold execLdVxK
  rw [hkey]
  cases s.lowestKey <;> exact ⟨_, _, rfl, rfl, rfl⟩

/-- Whether a store faults depends on its addresses alone, and its bytes go to memory alone (R54). -/
theorem storeBytes_finish_setSt (bs : List Byte) (a : Nat) (s : State) (b : Byte) {k : State → State}
    (hk : ∀ u : State, (k (u.setSt b)).setSt (k u).st = k u) :
    ∃ t u, (storeBytes bs a s).finish k = .next t ∧ (storeBytes bs a (s.setSt b)).finish k = .next u ∧
      u.setSt t.st = t := by
  rcases storeBytes_cases bs a s with ⟨hw, e⟩ | ⟨j, c, hj, hw, hc, e⟩
  · rw [e, storeBytes_done (s.setSt b) hw]
    exact ⟨_, _, rfl, rfl, hk (s.setMem _)⟩
  · rw [e, storeBytes_raised (s.setSt b) hj hw hc]
    exact ⟨_, _, rfl, rfl, rfl⟩

theorem loadedFrom_setSt (rs : List Reg) (a : Nat) (s : State) (b : Byte) :
    State.loadedFrom rs a (s.setSt b) = (State.loadedFrom rs a s).setSt b := by
  induction rs generalizing a s with
  | nil => rfl
  | cons r rs ih => exact ih (a + 1) (s.setV r (s.byteAt a))

/-- Whether a load faults depends on its addresses alone, and it reads memory alone (R53). -/
theorem loadRegs_finish_setSt (rs : List Reg) (a : Nat) (s : State) (b : Byte) {k : State → State}
    (hk : ∀ u : State, (k (u.setSt b)).setSt (k u).st = k u) :
    ∃ t u, (loadRegs rs a s).finish k = .next t ∧ (loadRegs rs a (s.setSt b)).finish k = .next u ∧
      u.setSt t.st = t := by
  rcases loadRegs_cases rs a s with ⟨hm, e⟩ | ⟨j, hj, hm, hb, e⟩
  · rw [e, loadRegs_done (s.setSt b) hm, loadedFrom_setSt]
    exact ⟨_, _, rfl, rfl, hk _⟩
  · rw [e, loadRegs_raised (s.setSt b) hj hm hb, loadedFrom_setSt]
    exact ⟨_, _, rfl, rfl, rfl⟩

/-- The rows of a sprite are read from memory at I (R161). -/
theorem drawRows_setSt (s : State) (b : Byte) (ax ay left r : Nat) (c : Canvas) :
    drawRows (s.setSt b) ax ay left r c = drawRows s ax ay left r c := by
  induction left generalizing r c with
  | zero => rfl
  | succ left ih =>
    have hread : memRead (s.setSt b) ((s.setSt b).indexAddr r) = memRead s (s.indexAddr r) := rfl
    unfold drawRows
    rw [hread]
    simp only [ih]

theorem execDrw_ignoresSoundTimer (x y : Reg) (n : Fin 16) : IgnoresSoundTimer (execDrw x y n) := by
  intro s b
  unfold execDrw
  rw [drawRows_setSt, State.setSt_getV, State.setSt_getV, State.setSt_disp]
  rcases drawRows s _ _ _ _ _ with ⟨c, _ | e⟩ <;> exact ⟨_, _, rfl, rfl, rfl⟩

/-- Most instructions are one update that does not look at ST, the rest a shared operation; FX18 overwrites ST. -/
theorem exec_ignoresSoundTimer (i : Instr) : IgnoresSoundTimer (exec i) := by
  cases i with
  | ret => exact popPc_ignoresSoundTimer
  | call nnn => exact call_ignoresSoundTimer (addrOperand nnn)
  | seImm | sneImm | seReg | sneReg => exact fun s b => ⟨_, _, rfl, rfl, skipIf_setSt_setSt s _ b⟩
  | drw x y n => exact execDrw_ignoresSoundTimer x y n
  | skp x => exact fun s b => keySkip_setSt (keyOperand (s.getV x)) s.key s b
  | sknp x => exact fun s b => keySkip_setSt (keyOperand (s.getV x)) (fun k => !s.key k) s b
  | ldVxK x => exact execLdVxK_ignoresSoundTimer x
  | ldBVx | ldMemVx => exact fun s b => storeBytes_finish_setSt _ _ s b fun _ => rfl
  | ldVxMem => exact fun s b => loadRegs_finish_setSt _ _ s b fun _ => rfl
  | sys | cls | jp | jpV0 | ldImm | addImm | mov | or | and | xor | add | sub | shr | subn | shl | rnd | ldI | addIVx
  | ldFVx | ldVxDt | ldDtVx | ldStVx => exact fun s b => ⟨_, _, rfl, rfl, rfl⟩

/-- Settles O46: each timer instruction is one write of its destination, a tick leaves a timer at 0 there, and no
shared operation of the instructions reads ST. -/
theorem timerInstructionsCopy : Obligations.TimerInstructionsCopy := fun x s =>
  ⟨⟨decodesTo_ldVxDt x, s.setV x s.dt, exec_ldVxDt x s, getV_setV_same s x s.dt, setV_regsKeptBut s x s.dt,
      setV_onlyChanges s x s.dt⟩,
    ⟨decodesTo_ldDtVx x, s.setDt (s.getV x), exec_ldDtVx x s, State.setDt_dt s _, setDt_onlyChanges s _,
      tickTimers_dt_of_zero (s.setDt (s.getV x))⟩,
    ⟨decodesTo_ldStVx x, s.setSt (s.getV x), exec_ldStVx x s, State.setSt_st s _, setSt_onlyChanges s _,
      tickTimers_silent_of_zero (s.setSt (s.getV x))⟩,
    fun i _ b ht => (exec_ignoresSoundTimer i).next_setSt ht b⟩

end Sys2Proof.Machine
end

section
/-! PROOFS. Decoding and encoding undo each other, and which words decode to no shape (R84 to R89). -/

namespace Sys2Proof

/-! ### From an instruction to its word and back (R84, R87) -/

theorem decode_formNNN_sys {nnn : Addr12} (hcls : nnn ≠ 0x0E0) (hret : nnn ≠ 0x0EE) :
    decode (formNNN 0x0 nnn) = .instr (.sys nnn) := by
  have hnnn := nnnField_formNNN 0x0 nnn
  have notCls : formNNN 0x0 nnn ≠ 0x00E0 := fun e => hcls (by rw [← hnnn, e]; rfl)
  have notRet : formNNN 0x0 nnn ≠ 0x00EE := fun e => hret (by rw [← hnnn, e]; rfl)
  simp only [decode, opField_formNNN]
  show decode0 _ = _
  rw [decode0, if_neg notCls, if_neg notRet, hnnn]

/-- The fields of the encoded word are the ones the encoder put there, and they select the instruction's own row. -/
theorem decode_encode {i : Instr} (hi : i.wellFormed = true) : decode (encode i) = .instr i := by
  cases i with
  | sys nnn =>
    simp only [Instr.wellFormed, Bool.and_eq_true, decide_eq_true_eq] at hi
    exact decode_formNNN_sys hi.1 hi.2
  | cls | ret => decide
  | jp | call | ldI | jpV0 => simp [encode, decode]
  | seImm | sneImm | ldImm | addImm | rnd => simp [encode, decode]
  | seReg | sneReg | drw => simp [encode, decode]
  | mov | or | and | xor | add | sub | shr | subn | shl => simp [encode, decode, decode8]
  | skp | sknp => simp [encode, decode, decodeE]
  | ldVxDt | ldVxK | ldDtVx | ldStVx | addIVx | ldFVx | ldBVx | ldMemVx | ldVxMem => simp [encode, decode, decodeF]

theorem decodeBytes_of_word (w : Word) : decodeBytes [highByte w, lowByte w] = some (decode w, []) := by
  rw [decodeBytes, wordOfBytes_bytes]

/-- Settles O2: the two bytes of a word make the word, so the round trip of words is that of bytes too. -/
theorem decodeOfEncodeIsTheInstruction : Obligations.DecodeOfEncodeIsTheInstruction := fun i hi =>
  ⟨decode_encode hi, by rw [decodeBytes_of_word, decode_encode hi]⟩

/-! ### From a word to its instruction and back (R84, R87) -/

section
variable {w : Word} {op : BitVec 4}

theorem formNNN_of_fields (hop : (opField w).toNat = op.toNat) : formNNN op (nnnField w) = w := by
  apply BitVec.eq_of_toNat_eq
  rw [opField_toNat] at hop
  rw [formNNN_toNat, nnnField_toNat]
  omega

theorem formXNN_of_fields {nn : Byte} (hop : (opField w).toNat = op.toNat) (hnn : (nnField w).toNat = nn.toNat) :
    formXNN op (xField w) nn = w := by
  apply BitVec.eq_of_toNat_eq
  rw [opField_toNat] at hop
  rw [nnField_toNat] at hnn
  rw [formXNN_toNat, xField_val]
  omega

theorem formXYN_of_fields {n : BitVec 4} (hop : (opField w).toNat = op.toNat) (hn : (nField w).toNat = n.toNat) :
    formXYN op (xField w) (yField w) n = w := by
  apply BitVec.eq_of_toNat_eq
  rw [opField_toNat] at hop
  rw [nField_toNat] at hn
  rw [formXYN_toNat, xField_val, yField_val]
  omega

end

/-- The instruction is well-formed and its word is `w`. -/
def IsWordOf (w : Word) (i : Instr) : Prop := i.wellFormed = true ∧ encode i = w

theorem wellFormed_sys {nnn : Addr12} : (Instr.sys nnn).wellFormed = true ↔ nnn ≠ 0x0E0 ∧ nnn ≠ 0x0EE := by
  simp only [Instr.wellFormed, Bool.and_eq_true, decide_eq_true_eq]

theorem isWordOf_of_decode0 {w : Word} {i : Instr} (hop : (opField w).toNat = 0) (h : decode0 w = .instr i) :
    IsWordOf w i := by
  have hform : formNNN 0x0 (nnnField w) = w := formNNN_of_fields hop
  unfold decode0 at h
  split_ifs at h with hcls hret <;> cases h
  · exact ⟨rfl, hcls.symm⟩
  · exact ⟨rfl, hret.symm⟩
  · have notCls : nnnField w ≠ 0x0E0 := fun e => hcls (by rw [← hform, e]; rfl)
    have notRet : nnnField w ≠ 0x0EE := fun e => hret (by rw [← hform, e]; rfl)
    exact ⟨wellFormed_sys.2 ⟨notCls, notRet⟩, hform⟩

theorem isWordOf_of_decode8 {w : Word} {i : Instr} (hop : (opField w).toNat = 8) (h : decode8 w = .instr i) :
    IsWordOf w i := by
  unfold decode8 at h
  split at h <;> cases h
  all_goals exact ⟨rfl, formXYN_of_fields hop ‹_›⟩

theorem isWordOf_of_decodeE {w : Word} {i : Instr} (hop : (opField w).toNat = 14) (h : decodeE w = .instr i) :
    IsWordOf w i := by
  unfold decodeE at h
  split at h <;> cases h
  all_goals exact ⟨rfl, formXNN_of_fields hop ‹_›⟩

theorem isWordOf_of_decodeF {w : Word} {i : Instr} (hop : (opField w).toNat = 15) (h : decodeF w = .instr i) :
    IsWordOf w i := by
  unfold decodeF at h
  split at h <;> cases h
  all_goals exact ⟨rfl, formXNN_of_fields hop ‹_›⟩

theorem isWordOf_of_decode {w : Word} {i : Instr} (h : decode w = .instr i) : IsWordOf w i := by
  unfold decode at h
  split at h
  case h_1 hop => exact isWordOf_of_decode0 hop h
  case h_2 hop | h_3 hop | h_11 hop | h_12 hop => cases h; exact ⟨rfl, formNNN_of_fields hop⟩
  case h_4 hop | h_5 hop | h_7 hop | h_8 hop | h_13 hop => cases h; exact ⟨rfl, formXNN_of_fields hop rfl⟩
  case h_6 hop | h_10 hop =>
    split_ifs at h with hn
    cases h
    exact ⟨rfl, formXYN_of_fields hop (congrArg BitVec.toNat hn)⟩
  case h_9 hop => exact isWordOf_of_decode8 hop h
  case h_14 hop => cases h; exact ⟨rfl, formXYN_of_fields hop rfl⟩
  case h_15 hop => exact isWordOf_of_decodeE hop h
  case h_16 =>
    have hop : (opField w).toNat = 15 := by have := (opField w).isLt; simp only [imp_false] at *; omega
    exact isWordOf_of_decodeF hop h

/-- Settles O3: in every row of the table the fields that the decoder reads, with the bits it tests, make the whole
word. -/
theorem encodeOfDecodeIsTheWord : Obligations.EncodeOfDecodeIsTheWord := fun _ _ => isWordOf_of_decode

/-! ### The words that decode to no shape (R84, R86) -/

theorem decode8_eq_error (w : Word) :
    decode8 w = .decodeError w ↔ w.toNat % 16 ∈ [0x8, 0x9, 0xA, 0xB, 0xC, 0xD, 0xF] := by
  have hlt : w.toNat % 16 < 16 := Nat.mod_lt _ (by decide)
  unfold decode8
  rw [nField_toNat]
  generalize w.toNat % 16 = n at hlt ⊢
  interval_cases n <;> simp

theorem decodeE_eq_error (w : Word) : decodeE w = .decodeError w ↔ w.toNat % 256 ∉ [0x9E, 0xA1] := by
  unfold decodeE
  rw [nnField_toNat]
  split
  case h_3 h₁ h₂ => simpa using ⟨h₁, h₂⟩
  all_goals rename_i e; simp [e]

theorem decodeF_eq_error (w : Word) :
    decodeF w = .decodeError w ↔ w.toNat % 256 ∉ [0x07, 0x0A, 0x15, 0x18, 0x1E, 0x29, 0x33, 0x55, 0x65] := by
  unfold decodeF
  rw [nnField_toNat]
  split
  case h_10 => simp_all
  all_goals rename_i e; simp [e]

theorem decode_eq_error (w : Word) :
    decode w = .decodeError w ↔
      ((w.toNat / 4096 = 0x5 ∨ w.toNat / 4096 = 0x9) ∧ w.toNat % 16 ≠ 0) ∨
      (w.toNat / 4096 = 0x8 ∧ w.toNat % 16 ∈ [0x8, 0x9, 0xA, 0xB, 0xC, 0xD, 0xF]) ∨
      (w.toNat / 4096 = 0xE ∧ w.toNat % 256 ∉ [0x9E, 0xA1]) ∨
      (w.toNat / 4096 = 0xF ∧ w.toNat % 256 ∉ [0x07, 0x0A, 0x15, 0x18, 0x1E, 0x29, 0x33, 0x55, 0x65]) := by
  have hn : nField w = 0#4 ↔ w.toNat % 16 = 0 := by rw [← nField_toNat, ← BitVec.toNat_inj, BitVec.toNat_zero]
  have hop : w.toNat / 4096 < 16 := by have := w.isLt; omega
  have h0 : decode0 w ≠ .decodeError w := by unfold decode0; split_ifs <;> exact nofun
  rw [← decode8_eq_error, ← decodeE_eq_error, ← decodeF_eq_error]
  unfold decode
  rw [opField_toNat]
  generalize w.toNat / 4096 = op at hop ⊢
  interval_cases op <;> simp [h0, hn]

/-- Settles O4: a major opcode either has one shape, or a minor field that selects among its shapes and may select
none. -/
theorem decodeErrorOnExactlyTheIllegalWords : Obligations.DecodeErrorOnExactlyTheIllegalWords := fun w =>
  ⟨fun _ => decodeError_word, decode_eq_error w⟩

/-! ### Words written out -/

/-- Settles O1, by evaluating the decoder on each of the sixteen words. -/
theorem decodeReadsWrittenOutWords : Obligations.DecodeReadsWrittenOutWords := by
  unfold Obligations.DecodeReadsWrittenOutWords
  decide

end Sys2Proof

namespace Sys2Proof.Machine

/-- An instruction's word, given as a number, decodes to it. -/
theorem decodesTo_of_encode {w : Nat} {i : Instr} (hi : i.wellFormed = true) (hw : (encode i).toNat = w) :
    DecodesTo w i := by
  rw [DecodesTo, ← hw, BitVec.ofNat_toNat, BitVec.setWidth_eq, decode_encode hi]

/-- A word of format F_XY: `k` gives the opcode and N, and X and Y stand between them (R83). -/
theorem decodesTo_formXYN {i : Instr} {k : Nat} {op n : BitVec 4} {x y : Reg} (hi : i.wellFormed = true)
    (he : encode i = formXYN op x y n) (hk : k = op.toNat * 4096 + n.toNat) :
    DecodesTo (k + 0x100 * x.val + 0x10 * y.val) i :=
  decodesTo_of_encode hi (by rw [he, formXYN_toNat, hk]; omega)

/-- A word of format F_XNN (R83). -/
theorem decodesTo_formXNN {i : Instr} {k : Nat} {op : BitVec 4} {x : Reg} {nn : Byte} (hi : i.wellFormed = true)
    (he : encode i = formXNN op x nn) (hk : k = op.toNat * 4096) : DecodesTo (k + 0x100 * x.val + nn.toNat) i :=
  decodesTo_of_encode hi (by rw [he, formXNN_toNat, hk]; omega)

/-- A word of format F_X: `k` gives the opcode and NN, and X stands between them (R83). -/
theorem decodesTo_formX {i : Instr} {k : Nat} {op : BitVec 4} {x : Reg} {nn : Byte} (hi : i.wellFormed = true)
    (he : encode i = formXNN op x nn) (hk : k = op.toNat * 4096 + nn.toNat) : DecodesTo (k + 0x100 * x.val) i :=
  decodesTo_of_encode hi (by rw [he, formXNN_toNat, hk]; omega)

end Sys2Proof.Machine
end

section
/-! PROOFS. What each instruction with more than one outcome can do, and the frames, registers, faults and bytes that
follow for all instructions (R21, R200 to R210). -/

namespace Sys2Proof.Machine

/-! ### One lemma for each shared operation -/

/-- A store ends at its last byte, or at the first that may not be written (R153, R154). -/
theorem storeBytes_finish_cases (bs : List Byte) (a : Nat) (s : State) (k : State → State) :
    (Writable a bs.length ∧
      (storeBytes bs a s).finish k = .next (k (s.setMem (s.mem.writeAll s.params a bs)))) ∨
    ∃ j c, j < bs.length ∧ Writable a j ∧ WriteFaults (a + j) c ∧ (storeBytes bs a s).finish k =
      .next ((s.setMem (s.mem.writeAll s.params a (bs.take j))).recordFault c) := by
  rcases storeBytes_cases bs a s with ⟨hw, e⟩ | ⟨j, c, hj, hw, hc, e⟩
  · exact .inl ⟨hw, by rw [e, finish_done]⟩
  · exact .inr ⟨j, c, hj, hw, hc, by rw [e, finish_raised]⟩

/-- A block load ends at its last register, or at the first byte outside memory (R155). -/
theorem exec_ldVxMem_cases (x : Reg) (s : State) :
    ((∀ j, j ≤ x.val → s.index.toNat + j < 4096) ∧ exec (.ldVxMem x) s =
      .next ((State.loadedFrom (regBlock x) s.index.toNat s).setIndex (s.indexAfterBlock x))) ∨
    ∃ k, k ≤ x.val ∧ (∀ j, j < k → s.index.toNat + j < 4096) ∧ 4096 ≤ s.index.toNat + k ∧
      exec (.ldVxMem x) s = .next ((State.loadedFrom ((regBlock x).take k) s.index.toNat s).recordFault
        (.memoryBounds (s.index.toNat + k))) := by
  have hindex : (State.loadedFrom (regBlock x) s.index.toNat s).indexAfterBlock x = s.indexAfterBlock x := by
    rw [loadedFrom_eq]; rfl
  have hexec : exec (.ldVxMem x) s = (loadRegs (regBlock x) s.index.toNat s).finish
    fun t => t.setIndex (t.indexAfterBlock x) := rfl
  have hlen := regBlock_length x
  rw [hexec]
  rcases loadRegs_cases (regBlock x) s.index.toNat s with ⟨hm, e⟩ | ⟨k, hk, hm, hb, e⟩
  · exact .inl ⟨fun j hj => hm j (by omega), by rw [e, finish_done, hindex]⟩
  · exact .inr ⟨k, by omega, hm, hb, by rw [e, finish_raised]⟩

/-- What DXYN has drawn after its first `k` rows (R161). -/
def spriteCanvas (x y : Reg) (s : State) (k : Nat) : Canvas :=
  paintRows s (anchorX (s.getV x)) (anchorY (s.getV y)) k 0 { disp := s.disp, hit := false }

/-- A draw ends at its last row, or at the first whose byte lies outside memory (R161). -/
theorem exec_drw_cases (x y : Reg) (n : Fin 16) (s : State) :
    ((∀ j, j < n.val → s.index.toNat + j < 4096) ∧ exec (.drw x y n) s =
      .next ((s.setDisp (spriteCanvas x y s n.val).disp).setV vF (flagByte (spriteCanvas x y s n.val).hit))) ∨
    ∃ k, k < n.val ∧ (∀ j, j < k → s.index.toNat + j < 4096) ∧ 4096 ≤ s.index.toNat + k ∧
      exec (.drw x y n) s =
        .next ((s.setDisp (spriteCanvas x y s k).disp).recordFault (.memoryBounds (s.index.toNat + k))) := by
  have hexec : exec (.drw x y n) s = execDrw x y n s := rfl
  rw [hexec, execDrw]
  rcases drawRows_cases s (anchorX (s.getV x)) (anchorY (s.getV y)) n.val 0 ⟨s.disp, false⟩ with
    ⟨hm, e⟩ | ⟨k, hk, hm, hb, e⟩
  · rw [e]
    exact .inl ⟨fun j hj => by simpa [State.indexAddr] using hm j hj, rfl⟩
  · rw [e]
    refine .inr ⟨k, hk, fun j hj => by simpa [State.indexAddr] using hm j hj, by simpa [State.indexAddr] using hb, ?_⟩
    simp only [State.indexAddr, Nat.zero_add]
    rfl

/-- SKP and SKNP end in a fault above key 15, and otherwise skip or not (R180, R181). -/
theorem keySkip_cases (b : Byte) (taken : Key → Bool) (s : State) :
    (15 < b.toNat ∧ keySkip (keyOperand b) taken s = .next (s.recordFault (.keyIndex b))) ∨
    ∃ k : Key, b.toNat = k.val ∧ keySkip (keyOperand b) taken s = .next (s.skipIf (taken k)) := by
  by_cases hb : b.toNat < 16
  · exact .inr ⟨⟨b.toNat, hb⟩, rfl, by rw [keyOperand_ok hb]; rfl⟩
  · have hb : 15 < b.toNat := by omega
    exact .inl ⟨hb, by rw [keyOperand_error hb]; rfl⟩

/-- FX0A takes the lowest pressed key or rewinds (R182). -/
theorem exec_ldVxK_cases (x : Reg) (s : State) :
    (∃ k, s.lowestKey = some k ∧ exec (.ldVxK x) s = .next (s.setV x (keyByte k))) ∨
    (s.lowestKey = none ∧ exec (.ldVxK x) s = .next s.rewindPc) := by
  have hexec : exec (.ldVxK x) s = execLdVxK x s := rfl
  rw [hexec, execLdVxK]
  cases hk : s.lowestKey with
  | some k => exact .inl ⟨k, rfl, rfl⟩
  | none => exact .inr ⟨rfl, rfl⟩

/-! ### Totality (D36) -/

theorem exec_total (i : Instr) (s : State) : ∃ t, exec i s = .next t := by
  obtain ⟨t, -, ht, -, -⟩ := exec_ignoresSoundTimer i s s.st
  exact ⟨t, ht⟩

theorem step_total {s : State} (h : s.fault = none) : ∃ t, step s = .next t := by
  rcases step_cases s with ⟨c, hc, -⟩ | ⟨-, -, e⟩ | ⟨-, -, e⟩ | ⟨-, _, -, -, e⟩ | ⟨-, _, i, -, -, e⟩
  · rw [h] at hc; cases hc
  · exact ⟨_, e⟩
  · exact ⟨_, e⟩
  · exact ⟨_, e⟩
  · rw [e]; exact exec_total i s.advancePc

/-- Settles O11: a fault is a next state, so no branch of an instruction and no branch of a step without a recorded
fault answers anything else. -/
theorem everyInstructionRunsInEveryState : Obligations.EveryInstructionRunsInEveryState :=
  ⟨exec_total, fun _ => step_total⟩

/-! ### Frames -/

/-- A part that turns out to be kept can be struck from the end of a frame. -/
theorem OnlyChanges.without {ps : List Part} {p : Part} {s t : State} (h : OnlyChanges (ps ++ [p]) s t)
    (hp : Kept s t p) : OnlyChanges ps s t := by
  intro q hq
  by_cases e : q = p
  · rw [e]; exact hp
  · exact h q (by simp [hq, e])

/-- `run`, whatever it answers, changes only the parts listed. -/
def WritesOnly (parts : List Part) (run : State → Host.Outcome State Fault Refusal) : Prop :=
  ∀ s t, run s = .next t → OnlyChanges parts s t

theorem WritesOnly.mono {ps qs : List Part} {run : State → Host.Outcome State Fault Refusal} (h : WritesOnly ps run)
    (hs : ∀ p ∈ ps, p ∈ qs) : WritesOnly qs run := fun s t e => (h s t e).mono hs

/-- An instruction that is one update has the frame of the update. -/
theorem writesOnly_of_next {parts : List Part} {run : State → Host.Outcome State Fault Refusal} {f : State → State}
    (e : ∀ s, run s = .next (f s)) (h : ∀ s, OnlyChanges parts s (f s)) : WritesOnly parts run := by
  intro s t ht
  obtain rfl := Host.Outcome.next.inj ((e s).symm.trans ht)
  exact h s

theorem storeBytes_finish_onlyChanges {bs : List Byte} {a : Nat} {s t : State} {k : State → State} {parts : List Part}
    (hk : ∀ u, OnlyChanges parts u (k u)) (h : (storeBytes bs a s).finish k = .next t) :
    OnlyChanges (.mem :: .fault :: parts) s t := by
  rcases storeBytes_finish_cases bs a s k with ⟨-, e⟩ | ⟨j, c, -, -, -, e⟩ <;>
    obtain rfl := Host.Outcome.next.inj (e.symm.trans h)
  · exact ((setMem_onlyChanges s _).append (hk _)).mono (by simp; tauto)
  · exact ((setMem_onlyChanges s _).append (recordFault_onlyChanges _ c)).mono (by simp)

theorem ldMemVx_writesOnly (x : Reg) : WritesOnly [.mem, .index, .fault] (exec (.ldMemVx x)) := fun _ _ h =>
  (storeBytes_finish_onlyChanges (fun u => setIndex_onlyChanges u _) h).mono (by decide)

theorem ldVxMem_writesOnly (x : Reg) : WritesOnly [.regs, .index, .fault] (exec (.ldVxMem x)) := by
  intro s t h
  rcases exec_ldVxMem_cases x s with ⟨-, e⟩ | ⟨k, -, -, -, e⟩ <;> obtain rfl := Host.Outcome.next.inj (e.symm.trans h)
  · exact ((loadedFrom_onlyChanges _ _ s).append (setIndex_onlyChanges _ _)).mono (by decide)
  · exact ((loadedFrom_onlyChanges _ _ s).append (recordFault_onlyChanges _ _)).mono (by decide)

theorem drw_writesOnly (x y : Reg) (n : Fin 16) : WritesOnly [.regs, .disp, .fault] (exec (.drw x y n)) := by
  intro s t h
  rcases exec_drw_cases x y n s with ⟨-, e⟩ | ⟨k, -, -, -, e⟩ <;> obtain rfl := Host.Outcome.next.inj (e.symm.trans h)
  · exact ((setDisp_onlyChanges s _).append (setV_onlyChanges _ _ _)).mono (by decide)
  · exact ((setDisp_onlyChanges s _).append (recordFault_onlyChanges _ _)).mono (by decide)

theorem keySkip_onlyChanges {b : Byte} {taken : Key → Bool} {s t : State}
    (h : keySkip (keyOperand b) taken s = .next t) : OnlyChanges [.pc, .fault] s t := by
  rcases keySkip_cases b taken s with ⟨-, e⟩ | ⟨k, -, e⟩ <;> obtain rfl := Host.Outcome.next.inj (e.symm.trans h)
  · exact (recordFault_onlyChanges s _).mono (by decide)
  · exact (skipIf_onlyChanges s _).mono (by decide)

theorem ldVxK_writesOnly (x : Reg) : WritesOnly [.regs, .pc] (exec (.ldVxK x)) := by
  intro s t h
  rcases exec_ldVxK_cases x s with ⟨k, -, e⟩ | ⟨-, e⟩ <;> obtain rfl := Host.Outcome.next.inj (e.symm.trans h)
  · exact (setV_onlyChanges s _ _).mono (by decide)
  · exact (rewindPc_onlyChanges s).mono (by decide)

theorem rnd_writesOnly (x : Reg) (nn : Byte) : WritesOnly [.regs, .draws] (exec (.rnd x nn)) :=
  writesOnly_of_next (fun _ => rfl) fun s => (setV_onlyChanges s _ _).append (countDraw_onlyChanges _)

/-- An instruction changes only the parts its rule names. -/
theorem exec_writesOnly (i : Instr) : WritesOnly (mayChange i) (exec i) := by
  cases i with
  | sys => exact writesOnly_of_next (fun _ => rfl) fun s => recordFault_onlyChanges s _
  | cls => exact writesOnly_of_next (fun _ => rfl) fun s => setDisp_onlyChanges s _
  | ret => exact fun _ _ => popPc_onlyChanges
  | call => exact fun _ _ => call_onlyChanges
  | jp | jpV0 => exact writesOnly_of_next (fun _ => rfl) fun s => setPc_onlyChanges s _
  | seImm | sneImm | seReg | sneReg => exact writesOnly_of_next (fun _ => rfl) fun s => skipIf_onlyChanges s _
  | ldImm | addImm | mov | ldVxDt => exact writesOnly_of_next (fun _ => rfl) fun s => setV_onlyChanges s _ _
  | or | and | xor | add | sub | shr | subn | shl =>
    exact writesOnly_of_next (fun _ => rfl) fun s => setResultFlag_onlyChanges s _ _ _
  | rnd x nn => exact rnd_writesOnly x nn
  | ldI | addIVx | ldFVx => exact writesOnly_of_next (fun _ => rfl) fun s => setIndex_onlyChanges s _
  | drw x y n => exact drw_writesOnly x y n
  | skp | sknp => exact fun _ _ => keySkip_onlyChanges
  | ldVxK x => exact ldVxK_writesOnly x
  | ldDtVx => exact writesOnly_of_next (fun _ => rfl) fun s => setDt_onlyChanges s _
  | ldStVx => exact writesOnly_of_next (fun _ => rfl) fun s => setSt_onlyChanges s _
  | ldBVx => exact fun _ _ h => storeBytes_finish_onlyChanges (OnlyChanges.refl []) h
  | ldMemVx x => exact ldMemVx_writesOnly x
  | ldVxMem x => exact ldVxMem_writesOnly x

/-- Settles O13: every instruction is made of updates whose frames are known. -/
theorem instructionsWriteOnlyTheirParts : Obligations.InstructionsWriteOnlyTheirParts := exec_writesOnly

/-- The parts that are the host's or fixed. -/
theorem not_mem_mayChange (i : Instr) : ∀ p ∈ [Part.keys, .latched, .latchedKey, .params], p ∉ mayChange i := by
  cases i <;> simp [mayChange]

section
variable {i : Instr} {s t : State} (h : exec i s = .next t)
include h

theorem exec_keys : t.keys = s.keys := exec_writesOnly i s t h .keys (not_mem_mayChange i _ (by decide))

theorem exec_latched : t.latched = s.latched := exec_writesOnly i s t h .latched (not_mem_mayChange i _ (by decide))

theorem exec_latchedKey : t.latchedKey = s.latchedKey :=
  exec_writesOnly i s t h .latchedKey (not_mem_mayChange i _ (by decide))

theorem exec_params : t.params = s.params := exec_writesOnly i s t h .params (not_mem_mayChange i _ (by decide))

end

/-! ### Registers (R21) -/

theorem setResultFlag_regsKeptBut (s : State) (x : Reg) (b : Byte) (f : Bool) :
    RegsKeptBut [x, 15] s (s.setResultFlag x b f) := by
  intro r hr
  obtain ⟨hx, hvF⟩ : r ≠ x ∧ r ≠ vF := by simpa using hr
  rw [State.getV_setResultFlag, if_neg hvF, if_neg hx]

/-- What DXYN draws with leaves every register but VF alone. -/
theorem exec_drw_getV {x y r : Reg} {n : Fin 16} {s t : State} (h : exec (.drw x y n) s = .next t) (hr : r ≠ vF) :
    t.getV r = s.getV r := by
  rcases exec_drw_cases x y n s with ⟨-, e⟩ | ⟨k, -, -, -, e⟩ <;> obtain rfl := Host.Outcome.next.inj (e.symm.trans h)
  · simp [hr]
  · rfl

theorem exec_ldVxK_getV {x r : Reg} {s t : State} (h : exec (.ldVxK x) s = .next t) (hr : r ≠ x) :
    t.getV r = s.getV r := by
  rcases exec_ldVxK_cases x s with ⟨k, -, e⟩ | ⟨-, e⟩ <;> obtain rfl := Host.Outcome.next.inj (e.symm.trans h)
  · simp [hr]
  · rfl

theorem exec_ldVxMem_getV {x r : Reg} {s t : State} (h : exec (.ldVxMem x) s = .next t) (hr : ¬ r ≤ x) :
    t.getV r = s.getV r := by
  have hr : r ∉ regBlock x := fun hm => hr ((mem_regBlock x r).1 hm)
  rcases exec_ldVxMem_cases x s with ⟨-, e⟩ | ⟨k, -, -, -, e⟩ <;> obtain rfl := Host.Outcome.next.inj (e.symm.trans h)
  · exact loadedFrom_getV_of_not_mem _ s hr
  · exact loadedFrom_getV_of_not_mem _ s fun hm => hr (List.mem_of_mem_take hm)

/-- Settles O14: an instruction whose frame leaves the registers out keeps them all, and the others write the
registers that `mayWriteReg` names. -/
theorem registersChangeOnlyUnderTheirWriters : Obligations.RegistersChangeOnlyUnderTheirWriters := by
  intro i s t r h hr
  have kept (hp : Part.regs ∉ mayChange i) : t.getV r = s.getV r := exec_writesOnly i s t h .regs hp r
  cases i with
  | ldImm | addImm | mov | ldVxDt | rnd =>
    obtain rfl := Host.Outcome.next.inj h
    exact setV_regsKeptBut s _ _ r (by simpa [mayWriteReg] using hr)
  | or | and | xor | add | sub | shr | subn | shl =>
    obtain rfl := Host.Outcome.next.inj h
    exact setResultFlag_regsKeptBut s _ _ _ r (by simpa [mayWriteReg] using hr)
  | drw => exact exec_drw_getV h (of_decide_eq_false hr)
  | ldVxK => exact exec_ldVxK_getV h (of_decide_eq_false hr)
  | ldVxMem => exact exec_ldVxMem_getV h (of_decide_eq_false hr)
  | _ => exact kept (by simp [mayChange])

/-! ### Faults (R200 to R207) -/

section
variable {s t : State} {c : Fault} (hs : s.fault = none) (ht : t.fault = some c)
include hs ht

/-- A state with a fault is not one whose fault field is that of a state without. -/
theorem fault_ne (e : t.fault = s.fault) : False := by rw [ht, hs] at e; cases e

theorem exec_ret_fault (h : exec .ret s = .next t) : c = .stackUnderflow := by
  by_cases hsp : s.sp = 0
  · obtain rfl := Host.Outcome.next.inj ((popPc_empty hsp).symm.trans h)
    exact (Option.some.inj ht).symm
  · obtain ⟨_, _, e⟩ := popPc_next hsp
    obtain rfl := Host.Outcome.next.inj (e.symm.trans h)
    exact (fault_ne hs ht rfl).elim

theorem exec_call_fault {nnn : Addr12} (h : exec (.call nnn) s = .next t) : c = .stackOverflow := by
  by_cases hsp : s.sp < s.params.stackUsable
  · obtain ⟨_, _, e⟩ := call_next (addrOperand nnn) hsp
    obtain rfl := Host.Outcome.next.inj (e.symm.trans h)
    exact (fault_ne hs ht rfl).elim
  · obtain rfl := Host.Outcome.next.inj ((call_full _ (Fin.not_lt.1 hsp)).symm.trans h)
    exact (Option.some.inj ht).symm

theorem keySkip_fault {b : Byte} {taken : Key → Bool} (h : keySkip (keyOperand b) taken s = .next t) :
    ∃ k : Byte, 15 < k.toNat ∧ c = .keyIndex k := by
  rcases keySkip_cases b taken s with ⟨hb, e⟩ | ⟨k, -, e⟩ <;> obtain rfl := Host.Outcome.next.inj (e.symm.trans h)
  · exact ⟨b, hb, (Option.some.inj ht).symm⟩
  · exact (fault_ne hs ht (skipIf_onlyChanges s _ .fault (by decide))).elim

theorem exec_drw_fault {x y : Reg} {n : Fin 16} (h : exec (.drw x y n) s = .next t) :
    ∃ a, 4096 ≤ a ∧ c = .memoryBounds a := by
  rcases exec_drw_cases x y n s with ⟨-, e⟩ | ⟨k, -, -, hb, e⟩ <;> obtain rfl := Host.Outcome.next.inj (e.symm.trans h)
  · exact (fault_ne hs ht rfl).elim
  · exact ⟨_, hb, (Option.some.inj ht).symm⟩

theorem exec_ldVxMem_fault {x : Reg} (h : exec (.ldVxMem x) s = .next t) : ∃ a, 4096 ≤ a ∧ c = .memoryBounds a := by
  rcases exec_ldVxMem_cases x s with ⟨-, e⟩ | ⟨k, -, -, hb, e⟩ <;> obtain rfl := Host.Outcome.next.inj (e.symm.trans h)
  · refine (fault_ne hs ht ?_).elim
    rw [State.setIndex_fault, loadedFrom_eq]
  · exact ⟨_, hb, (Option.some.inj ht).symm⟩

theorem storeBytes_finish_fault {bs : List Byte} {a : Nat} {k : State → State} (hk : ∀ u, (k u).fault = u.fault)
    (h : (storeBytes bs a s).finish k = .next t) : ∃ b, WriteFaults b c := by
  rcases storeBytes_finish_cases bs a s k with ⟨-, e⟩ | ⟨j, d, -, -, hd, e⟩ <;>
    obtain rfl := Host.Outcome.next.inj (e.symm.trans h)
  · exact (fault_ne hs ht (hk _)).elim
  · obtain rfl := Option.some.inj ht
    exact ⟨_, hd⟩

theorem exec_ldBVx_fault {x : Reg} (h : exec (.ldBVx x) s = .next t) : ∃ b, WriteFaults b c :=
  storeBytes_finish_fault hs ht (k := id) (fun _ => rfl) h

theorem exec_ldMemVx_fault {x : Reg} (h : exec (.ldMemVx x) s = .next t) : ∃ b, WriteFaults b c :=
  storeBytes_finish_fault hs ht (k := fun u => u.setIndex (u.indexAfterBlock x)) (fun _ => rfl) h

end

/-- Settles O15: an instruction that may not write the fault record raises nothing, and each other one raises what
its shared operation raises. -/
theorem faultsComeFromTheirInstructions : Obligations.FaultsComeFromTheirInstructions := by
  intro i s t c h hs ht
  have kept (hp : Part.fault ∉ mayChange i) : t.fault = s.fault := exec_writesOnly i s t h .fault hp
  cases i with
  | sys nnn =>
    obtain rfl := Host.Outcome.next.inj h
    exact .inl ⟨nnn, rfl, (Option.some.inj ht).symm⟩
  | ret => exact .inr (.inl ⟨rfl, exec_ret_fault hs ht h⟩)
  | call nnn => exact .inr (.inr (.inl ⟨nnn, rfl, exec_call_fault hs ht h⟩))
  | skp x => exact .inr (.inr (.inr (.inl ⟨⟨x, .inl rfl⟩, keySkip_fault hs ht h⟩)))
  | sknp x => exact .inr (.inr (.inr (.inl ⟨⟨x, .inr rfl⟩, keySkip_fault hs ht h⟩)))
  | drw x y n => exact .inr (.inr (.inr (.inr (.inl ⟨.inl ⟨x, y, n, rfl⟩, exec_drw_fault hs ht h⟩))))
  | ldVxMem x => exact .inr (.inr (.inr (.inr (.inl ⟨.inr ⟨x, rfl⟩, exec_ldVxMem_fault hs ht h⟩))))
  | ldBVx x => exact .inr (.inr (.inr (.inr (.inr ⟨⟨x, .inl rfl⟩, exec_ldBVx_fault hs ht h⟩))))
  | ldMemVx x => exact .inr (.inr (.inr (.inr (.inr ⟨⟨x, .inr rfl⟩, exec_ldMemVx_fault hs ht h⟩))))
  | _ => exact (fault_ne hs ht (kept (by simp [mayChange]))).elim

/-! ### The sound timer (R27, R172) -/

/-- An instruction other than FX18 may not write ST. -/
theorem exec_st {i : Instr} {s t : State} (h : exec i s = .next t) (hi : ∀ x, i ≠ .ldStVx x) : t.st = s.st := by
  refine exec_writesOnly i s t h .st ?_
  cases i with
  | ldStVx x => exact absurd rfl (hi x)
  | _ => simp [mayChange]

/-- Run with another ST, an instruction ends in a state that differs in ST at most; what ST is there, the frame says. -/
theorem exec_setSt {i : Instr} {s t : State} (h : exec i s = .next t) (hi : ∀ x, i ≠ .ldStVx x) (b : Byte) :
    exec i (s.setSt b) = .next (t.setSt b) := by
  obtain ⟨u, hu, hut⟩ := (exec_ignoresSoundTimer i).next_setSt h b
  have hst : u.st = b := exec_st hu hi
  rw [hu, ← hut, ← hst]
  rfl

/-- Settles O48: with another ST the answer differs in ST at most, and ST there is what the frame keeps. -/
theorem noInstructionReadsTheSoundTimer : Obligations.NoInstructionReadsTheSoundTimer :=
  ⟨fun _ _ _ b h hi => ⟨exec_st h hi, exec_setSt h hi b⟩, fun _ _ _ => rfl⟩

/-! ### The keys (R28) -/

/-- `run` answers a next state, and with another key state in the machine the same one with that key state in it. -/
def IgnoresKeys (run : State → Host.Outcome State Fault Refusal) : Prop :=
  ∀ (s : State) (k : Key) (b : Bool), ∃ t, run s = .next t ∧ run (s.setKey k b) = .next (t.setKey k b)

theorem skipIf_setKey (s : State) (taken : Bool) (k : Key) (b : Bool) :
    (s.setKey k b).skipIf taken = (s.skipIf taken).setKey k b := by
  cases taken <;> rfl

theorem call_ignoresKeys (w : Word) : IgnoresKeys (·.call w) := by
  intro s k b
  by_cases h : s.sp < s.params.stackUsable
  · obtain ⟨_, _, e⟩ := call_next w h
    obtain ⟨_, _, e'⟩ := call_next (s := s.setKey k b) w h
    exact ⟨_, e, e'⟩
  · have h : s.params.stackUsable ≤ s.sp := Fin.not_lt.1 h
    exact ⟨_, call_full w h, call_full (s := s.setKey k b) w h⟩

theorem popPc_ignoresKeys : IgnoresKeys State.popPc := by
  intro s k b
  by_cases h : s.sp = 0
  · exact ⟨_, popPc_empty h, popPc_empty (s := s.setKey k b) h⟩
  · obtain ⟨_, _, e⟩ := popPc_next h
    obtain ⟨_, _, e'⟩ := popPc_next (s := s.setKey k b) h
    exact ⟨_, e, e'⟩

/-- Whether a store faults depends on its addresses alone, and its bytes go to memory alone (R54). -/
theorem storeBytes_finish_setKey (bs : List Byte) (a : Nat) (s : State) (k : Key) (b : Bool) {f : State → State}
    (hf : ∀ u : State, f (u.setKey k b) = (f u).setKey k b) :
    ∃ t, (storeBytes bs a s).finish f = .next t ∧
      (storeBytes bs a (s.setKey k b)).finish f = .next (t.setKey k b) := by
  rcases storeBytes_cases bs a s with ⟨hw, e⟩ | ⟨j, c, hj, hw, hc, e⟩
  · rw [e, storeBytes_done (s.setKey k b) hw]
    exact ⟨_, rfl, congrArg Host.Outcome.next (hf (s.setMem (s.mem.writeAll s.params a bs)))⟩
  · rw [e, storeBytes_raised (s.setKey k b) hj hw hc]
    exact ⟨_, rfl, rfl⟩

theorem loadedFrom_setKey (rs : List Reg) (a : Nat) (s : State) (k : Key) (b : Bool) :
    State.loadedFrom rs a (s.setKey k b) = (State.loadedFrom rs a s).setKey k b := by
  induction rs generalizing a s with
  | nil => rfl
  | cons r rs ih => exact ih (a + 1) (s.setV r (s.byteAt a))

/-- Whether a load faults depends on its addresses alone, and it reads memory alone (R53). -/
theorem loadRegs_finish_setKey (rs : List Reg) (a : Nat) (s : State) (k : Key) (b : Bool) {f : State → State}
    (hf : ∀ u : State, f (u.setKey k b) = (f u).setKey k b) :
    ∃ t, (loadRegs rs a s).finish f = .next t ∧ (loadRegs rs a (s.setKey k b)).finish f = .next (t.setKey k b) := by
  rcases loadRegs_cases rs a s with ⟨hm, e⟩ | ⟨j, hj, hm, hb, e⟩
  · rw [e, loadRegs_done (s.setKey k b) hm, loadedFrom_setKey]
    exact ⟨_, rfl, congrArg _ (hf _)⟩
  · rw [e, loadRegs_raised (s.setKey k b) hj hm hb, loadedFrom_setKey]
    exact ⟨_, rfl, rfl⟩

/-- The rows of a sprite are read from memory at I (R161). -/
theorem drawRows_setKey (s : State) (k : Key) (b : Bool) (ax ay left r : Nat) (c : Canvas) :
    drawRows (s.setKey k b) ax ay left r c = drawRows s ax ay left r c := by
  induction left generalizing r c with
  | zero => rfl
  | succ left ih =>
    have hread : memRead (s.setKey k b) ((s.setKey k b).indexAddr r) = memRead s (s.indexAddr r) := rfl
    unfold drawRows
    rw [hread]
    simp only [ih]

theorem execDrw_ignoresKeys (x y : Reg) (n : Fin 16) : IgnoresKeys (execDrw x y n) := by
  intro s k b
  unfold execDrw
  rw [drawRows_setKey, State.setKey_getV, State.setKey_getV, State.setKey_disp]
  rcases drawRows s _ _ _ _ _ with ⟨c, _ | e⟩ <;> exact ⟨_, rfl, rfl⟩

/-- Most instructions are one update that does not look at the keys, the rest a shared operation. -/
theorem exec_ignoresKeys {i : Instr} (hi : ∀ x, i ≠ .skp x ∧ i ≠ .sknp x ∧ i ≠ .ldVxK x) : IgnoresKeys (exec i) := by
  cases i with
  | skp x => exact absurd rfl (hi x).1
  | sknp x => exact absurd rfl (hi x).2.1
  | ldVxK x => exact absurd rfl (hi x).2.2
  | ret => exact popPc_ignoresKeys
  | call nnn => exact call_ignoresKeys (addrOperand nnn)
  | seImm | sneImm | seReg | sneReg => exact fun s k b => ⟨_, rfl, congrArg _ (skipIf_setKey s _ k b)⟩
  | drw x y n => exact execDrw_ignoresKeys x y n
  | ldBVx | ldMemVx => exact fun s k b => storeBytes_finish_setKey _ _ s k b fun _ => rfl
  | ldVxMem => exact fun s k b => loadRegs_finish_setKey _ _ s k b fun _ => rfl
  | sys | cls | jp | jpV0 | ldImm | addImm | mov | or | and | xor | add | sub | shr | subn | shl | rnd | ldI | addIVx
  | ldFVx | ldVxDt | ldDtVx | ldStVx => exact fun s k b => ⟨_, rfl, rfl⟩

theorem exec_setKey {i : Instr} {s t : State} (h : exec i s = .next t) (k : Key) (b : Bool)
    (hi : ∀ x, i ≠ .skp x ∧ i ≠ .sknp x ∧ i ≠ .ldVxK x) : exec i (s.setKey k b) = .next (t.setKey k b) := by
  obtain ⟨u, hu, hk⟩ := exec_ignoresKeys hi s k b
  obtain rfl := Host.Outcome.next.inj (hu.symm.trans h)
  exact hk

/-- Settles O51: the keys are in no instruction's frame, and no shared operation but the key operand's and FX0A's
reads them. -/
theorem onlyKeyInstructionsReadTheKeys : Obligations.OnlyKeyInstructionsReadTheKeys :=
  ⟨fun _ _ _ => exec_keys, fun _ _ _ k b h hi => exec_setKey h k b hi⟩

end Sys2Proof.Machine
end

section
/-! PROOFS. The fetch, what one step does in each of its cases, and its reply (R8, R55, R130 to R132, R201). -/

namespace Sys2Proof.Machine

/-! ### The fetch (R55) -/

theorem fetch_error_of_le {s : State} (h : 4095 ≤ s.pc.toNat) :
    fetch s = .error (.memoryBounds (max s.pc.toNat 4096)) := fetch_error (Nat.succ_le_succ h)

/-- Settles O6: the word of two bytes is their big-endian value, and at 4095 only the second read faults. -/
theorem fetchIsBigEndianAndChecked : Obligations.FetchIsBigEndianAndChecked := fun s =>
  ⟨fun h => ⟨_, fetch_ok h, wordOfBytes_toNat _ _⟩,
    fun h => by rw [fetch_error_of_le h.ge, Nat.max_eq_right (by omega)],
    fun h => by rw [fetch_error_of_le (by omega), Nat.max_eq_left h]⟩

/-! ### The step, case by case -/

theorem step_instr {s : State} {w : Word} {i : Instr} (hr : s.Running) (hf : fetch s = .ok w)
    (hd : decode w = .instr i) : step s = exec i s.advancePc := by
  rw [step_running hr hf, runWord_instr exec hd]

theorem step_undecoded {s : State} {w w' : Word} (hr : s.Running) (hf : fetch s = .ok w)
    (hd : decode w = .decodeError w') : step s = .next (s.advancePc.recordFault (.decodeError w)) := by
  rw [step_running hr hf, runWord_error exec hd]

/-- Settles O5: the fetch succeeds below the top of memory, and the cycle advances pc before it runs the word. -/
theorem stepRunsTheDecodedInstruction : Obligations.StepRunsTheDecodedInstruction := fun s _ hr hpc hd =>
  ⟨step_instr hr (fetch_ok hpc) hd, rfl, advancePc_onlyChanges s⟩

/-- A step that records a fault replies it (R209). -/
theorem stepReply_faulted {s t : State} {c : Fault} (h : step s = .next t) (ht : t.fault = some c) :
    stepReply s = .faulted c := by
  rw [stepReply, stepState_next h, ht]

/-- Settles O7: a fetch fault is recorded before pc is advanced. -/
theorem fetchFaultLeavesThePc : Obligations.FetchFaultLeavesThePc := by
  intro s hr hpc
  have hstep := step_fetchFault hr (fetch_error_of_le hpc)
  exact ⟨_, hstep, rfl, recordFault_onlyChanges s _, stepReply_faulted hstep rfl⟩

/-- Settles O8: pc is advanced before the word is decoded, and the fault names the word. -/
theorem undecodedWordIsSurfacedAsFault : Obligations.UndecodedWordIsSurfacedAsFault := by
  intro s w w' hr hf hd
  have hstep := step_undecoded hr hf hd
  exact ⟨_, hstep, rfl, rfl, (advancePc_onlyChanges s).append (recordFault_onlyChanges _ _),
    stepReply_faulted hstep rfl, rfl⟩

/-! ### A step of a machine that may not advance (R131, R132) -/

theorem stepState_faulted {s : State} {c : Fault} (h : s.fault = some c) : stepState s = s := by
  rw [stepState, step_faulted h]

theorem hostCall_step_faulted {s : State} {c : Fault} (h : s.fault = some c) :
    hostCall .step s = (s, .step (.faulted c)) := by
  rw [hostCall, stepReply, stepState_faulted h, h]

theorem hostCall_step_latched {s : State} (h : s.fault = none) (hl : s.latched = true) :
    hostCall .step s = (s, .step .latched) := by
  rw [hostCall, stepReply, stepState_next (step_latched h hl), h, if_pos hl]

/-- Settles O9: the step looks first at the fault record and then at the latch. -/
theorem faultedOrLatchedStepChangesNothing : Obligations.FaultedOrLatchedStepChangesNothing := fun _ =>
  ⟨fun _ h => ⟨step_faulted h, hostCall_step_faulted h⟩, fun h hl => ⟨step_latched h hl, hostCall_step_latched h hl⟩⟩

/-! ### The reply of a running step (R8) -/

/-- The wait for a key that is next to execute is read off the word at pc (R216, R218). -/
theorem waitRegister_eq_some {s : State} {x : Reg} :
    waitRegister s = some x ↔ ∃ w, fetch s = .ok w ∧ decode w = .instr (.ldVxK x) := by
  unfold waitRegister peek
  cases hf : fetch s with
  | error c => simp
  | ok w =>
    simp only [Except.ok.injEq, exists_eq_left']
    split
    next y hd => rw [hd]; simp
    next hd => exact ⟨nofun, fun h => (hd x h).elim⟩

/-- Which word is next decides whether the machine waits; the keys decide whether the wait repeats. -/
theorem selfRepeats_iff {s : State} {w : Word} {i : Instr} (hf : fetch s = .ok w) (hd : decode w = .instr i) :
    selfRepeats s = true ↔ (∃ x, i = .ldVxK x) ∧ ∀ k, s.key k = false := by
  have hwait : (∃ x, waitRegister s = some x) ↔ ∃ x, i = .ldVxK x := by
    simp [waitRegister_eq_some, hf, hd]
  rw [selfRepeats, Bool.and_eq_true, Option.isSome_iff_exists, hwait, Option.isNone_iff_eq_none, lowestKey_eq_none]

theorem stepReply_unfaulted {s t : State} (hl : s.latched = false) (h : step s = .next t) (ht : t.fault = none) :
    stepReply s = if selfRepeats s then .repeated else .executed := by
  rw [stepReply, stepState_next h, ht, hl]
  rfl

/-- Settles O10: the reply looks first at the fault record after the step and then at the self-repeat. -/
theorem stepReportsItsOutcome : Obligations.StepReportsItsOutcome := by
  intro s w i hr hf hd
  obtain ⟨t, ht⟩ := exec_total i s.advancePc
  have hstep : step s = .next t := (step_instr hr hf hd).trans ht
  refine ⟨t, ht, fun c hc => stepReply_faulted hstep hc, fun hn hi hk => ?_, fun hn hno => ?_⟩
  · rw [stepReply_unfaulted hr.2 hstep hn, if_pos ((selfRepeats_iff hf hd).2 ⟨hi, hk⟩)]
  · rw [stepReply_unfaulted hr.2 hstep hn, if_neg fun h => hno ((selfRepeats_iff hf hd).1 h)]

end Sys2Proof.Machine
end

section
/-! PROOFS. Checked accesses, memories that read alike, and what every step and every host call keeps: canonical memory,
the font, the stack bound and the latched key (R24, R25, R53, R54, R216, R217). -/

namespace Sys2Proof.Machine

/-! ### Accesses (R53, R54) -/

/-- Settles O31: which of the three cases an access takes, its address alone decides. -/
theorem memoryAccessesAreCheckedAndLocal : Obligations.MemoryAccessesAreCheckedAndLocal := by
  intro s a b
  refine ⟨memRead_error, memRead_ok, fun c => memWrite_error b, fun h => ?_⟩
  refine ⟨_, memWrite_ok b h, ?_, writeAll_bytesKeptBut s a [b], setMem_onlyChanges s _⟩
  have hread : (s.setMem (s.mem.write s.params a b)).byteAt a = b := by simp
  rw [memRead_ok (not_writeFaults h).1, hread]

/-- Settles O32: both memories list the cells that read differently from reset, in the one rising order. -/
theorem canonicalMemoriesAreDeterminedByTheirBytes : Obligations.CanonicalMemoriesAreDeterminedByTheirBytes := by
  intro p m n hm hn h
  have hmem : ∀ c, c ∈ m ↔ c ∈ n := fun ⟨a, v⟩ => by
    rw [Memory.mem_iff_read p m a v hm, Memory.mem_iff_read p n a v hn, h a]
  have hperm : m.Perm n := (List.perm_ext_iff_of_nodup (hm.1.imp fun hlt e => by rw [e] at hlt; omega)
    (hn.1.imp fun hlt e => by rw [e] at hlt; omega)).2 hmem
  exact hperm.eq_of_pairwise (fun _ _ _ _ hlt hgt => by omega) hm.1 hn.1

/-! ### What an instruction does to memory and to sp -/

/-- A store sequence leaves memory with some of its bytes, from its address up, in addresses that may be written. -/
theorem storeBytes_finish_mem {bs : List Byte} {a : Nat} {s t : State} {k : State → State}
    (hk : ∀ u, (k u).mem = u.mem) (h : (storeBytes bs a s).finish k = .next t) :
    ∃ cs, Writable a cs.length ∧ t.mem = s.mem.writeAll s.params a cs := by
  rcases storeBytes_finish_cases bs a s k with ⟨hw, e⟩ | ⟨j, c, hj, hw, -, e⟩ <;>
    obtain rfl := Host.Outcome.next.inj (e.symm.trans h)
  · exact ⟨bs, hw, hk _⟩
  · exact ⟨bs.take j, by rwa [List.length_take_of_le hj.le], rfl⟩

theorem call_mem {s t : State} {w : Word} (h : s.call w = .next t) : t.mem = s.mem := by
  by_cases hs : s.sp < s.params.stackUsable
  · obtain ⟨_, _, e⟩ := call_next w hs
    obtain rfl := Host.Outcome.next.inj (e.symm.trans h)
    rfl
  · obtain rfl := Host.Outcome.next.inj ((call_full w (Fin.not_lt.1 hs)).symm.trans h)
    rfl

theorem popPc_mem {s t : State} (h : s.popPc = .next t) : t.mem = s.mem := by
  by_cases hs : s.sp = 0
  · obtain rfl := Host.Outcome.next.inj ((popPc_empty hs).symm.trans h)
    rfl
  · obtain ⟨_, _, e⟩ := popPc_next hs
    obtain rfl := Host.Outcome.next.inj (e.symm.trans h)
    rfl

@[simp] theorem skipIf_mem (s : State) (taken : Bool) : (s.skipIf taken).mem = s.mem := by cases taken <;> rfl

theorem keySkip_mem {b : Byte} {taken : Key → Bool} {s t : State} (h : keySkip (keyOperand b) taken s = .next t) :
    t.mem = s.mem := by
  rcases keySkip_cases b taken s with ⟨-, e⟩ | ⟨k, -, e⟩ <;> obtain rfl := Host.Outcome.next.inj (e.symm.trans h)
  · rfl
  · exact skipIf_mem s _

theorem exec_ldVxK_mem {x : Reg} {s t : State} (h : exec (.ldVxK x) s = .next t) : t.mem = s.mem := by
  rcases exec_ldVxK_cases x s with ⟨k, -, e⟩ | ⟨-, e⟩ <;> obtain rfl := Host.Outcome.next.inj (e.symm.trans h) <;> rfl

theorem exec_drw_mem {x y : Reg} {n : Fin 16} {s t : State} (h : exec (.drw x y n) s = .next t) : t.mem = s.mem := by
  rcases exec_drw_cases x y n s with ⟨-, e⟩ | ⟨k, -, -, -, e⟩ <;>
    obtain rfl := Host.Outcome.next.inj (e.symm.trans h) <;> rfl

theorem exec_ldVxMem_mem {x : Reg} {s t : State} (h : exec (.ldVxMem x) s = .next t) : t.mem = s.mem := by
  rcases exec_ldVxMem_cases x s with ⟨-, e⟩ | ⟨k, -, -, -, e⟩ <;>
    obtain rfl := Host.Outcome.next.inj (e.symm.trans h)
  · rw [State.setIndex_mem, loadedFrom_eq]
  · rw [State.recordFault_mem, loadedFrom_eq]

/-- An instruction other than the two stores leaves the memory as data, not only its bytes. -/
theorem exec_mem {i : Instr} {s t : State} (h : exec i s = .next t) (hb : ∀ x, i ≠ .ldBVx x)
    (hm : ∀ x, i ≠ .ldMemVx x) : t.mem = s.mem := by
  cases i with
  | ldBVx x => exact absurd rfl (hb x)
  | ldMemVx x => exact absurd rfl (hm x)
  | ret => exact popPc_mem h
  | call => exact call_mem h
  | drw => exact exec_drw_mem h
  | skp | sknp => exact keySkip_mem h
  | ldVxK => exact exec_ldVxK_mem h
  | ldVxMem => exact exec_ldVxMem_mem h
  | seImm | sneImm | seReg | sneReg =>
    obtain rfl := Host.Outcome.next.inj h
    exact skipIf_mem s _
  | _ =>
    obtain rfl := Host.Outcome.next.inj h
    rfl

/-- What any instruction does to memory: it stores a list of bytes, empty for most, where a program may write. -/
theorem exec_mem_writeAll {i : Instr} {s t : State} (h : exec i s = .next t) :
    ∃ bs, Writable s.index.toNat bs.length ∧ t.mem = s.mem.writeAll s.params s.index.toNat bs := by
  by_cases hb : ∃ x, i = .ldBVx x
  · obtain ⟨x, rfl⟩ := hb
    exact storeBytes_finish_mem (k := id) (fun _ => rfl) h
  · by_cases hm : ∃ x, i = .ldMemVx x
    · obtain ⟨x, rfl⟩ := hm
      exact storeBytes_finish_mem (k := fun u => u.setIndex (u.indexAfterBlock x)) (fun _ => rfl) h
    · exact ⟨[], nofun, exec_mem h (not_exists.1 hb) (not_exists.1 hm)⟩

/-- Calls stop at STACK_USABLE and returns go down. -/
theorem exec_sp_le {i : Instr} {s t : State} (h : exec i s = .next t) (hs : s.sp ≤ s.params.stackUsable) :
    t.sp ≤ s.params.stackUsable := by
  have kept (hp : Part.sp ∉ mayChange i) : t.sp ≤ s.params.stackUsable := by rwa [exec_writesOnly i s t h .sp hp]
  cases i with
  | call nnn =>
    by_cases hsp : s.sp < s.params.stackUsable
    · obtain ⟨_, _, e⟩ := call_next (addrOperand nnn) hsp
      obtain rfl := Host.Outcome.next.inj (e.symm.trans h)
      exact Nat.succ_le_of_lt hsp
    · obtain rfl := Host.Outcome.next.inj ((call_full _ (Fin.not_lt.1 hsp)).symm.trans h)
      exact hs
  | ret =>
    by_cases hsp : s.sp = 0
    · obtain rfl := Host.Outcome.next.inj ((popPc_empty hsp).symm.trans h)
      exact hs
    · obtain ⟨_, _, e⟩ := popPc_next hsp
      obtain rfl := Host.Outcome.next.inj (e.symm.trans h)
      exact (Nat.sub_le _ _).trans hs
  | _ => exact kept (by simp [mayChange])

/-! ### The invariant under each kind of change -/

theorem writable_tail {a n : Nat} (h : Writable a (n + 1)) : Writable (a + 1) n := by
  intro j hj c hc
  exact h (j + 1) (by omega) c (by rwa [show a + (j + 1) = a + 1 + j by omega])

/-- Stores where a program may write keep the canonical form (R54). -/
theorem wf_writeAll_of_writable {p : Config.Params} {bs : List Byte} {a : Nat} {m : Memory}
    (hw : Writable a bs.length) (h : m.wf p) : (m.writeAll p a bs).wf p := by
  induction bs generalizing a m with
  | nil => exact h
  | cons b bs ih =>
    have ha : a < Config.memSize := (not_writeFaults (hw 0 (Nat.succ_pos _))).1
    exact ih (writable_tail hw) (Memory.wf_write p m a b ha h)

/-- Stores where a program may write leave every byte of the font alone (R54). -/
theorem read_writeAll_font {p : Config.Params} {bs : List Byte} {a : Nat} (m : Memory) (hw : Writable a bs.length)
    (k : Fin 80) : (m.writeAll p a bs).read p (Config.fontBase + k.val) = m.read p (Config.fontBase + k.val) := by
  rw [Memory.read_writeAll, dif_neg]
  rintro ⟨hle, hlt⟩
  obtain ⟨j, hj⟩ := Nat.exists_eq_add_of_le hle
  have hfree := (not_writeFaults (hw j (by omega))).2
  have := k.isLt
  simp only [Config.fontBase, Config.fontLast] at *
  omega

namespace State.Inv

variable {s t : State} (h : s.Inv)
include h

/-- The invariant reads six fields. -/
theorem of_eq (hm : t.mem = s.mem) (hp : t.params = s.params) (hsp : t.sp = s.sp) (hl : t.latched = s.latched)
    (hlk : t.latchedKey = s.latchedKey) (hk : t.keys = s.keys) : t.Inv where
  memWf := by rw [hm, hp]; exact h.memWf
  fontIntact k := by rw [byteAt_eq, hm, hp]; exact h.fontIntact k
  spBound := by rw [hsp, hp]; exact h.spBound
  latchedKeyHeld e := by rw [State.key, hk, hlk]; exact h.latchedKeyHeld (by rwa [← hl])

theorem advancePc : s.advancePc.Inv := h.of_eq rfl rfl rfl rfl rfl rfl

theorem recordFault (c : Fault) : (s.recordFault c).Inv := h.of_eq rfl rfl rfl rfl rfl rfl

/-- A new memory keeps the invariant when it is canonical and has the font. -/
theorem setMem {m : Memory} (hm : m.wf s.params)
    (hf : ∀ k : Fin 80, m.read s.params (Config.fontBase + k.val) = s.byteAt (Config.fontBase + k.val)) :
    (s.setMem m).Inv where
  memWf := hm
  fontIntact k := (hf k).trans (h.fontIntact k)
  spBound := h.spBound
  latchedKeyHeld := h.latchedKeyHeld

/-- An instruction stores where a program may write, keeps sp in its bounds and leaves keys and latch alone. -/
theorem exec {i : Instr} (e : Machine.exec i s = .next t) : t.Inv := by
  obtain ⟨bs, hw, hmem⟩ := exec_mem_writeAll e
  have hp := exec_params e
  constructor
  case memWf => rw [hmem, hp]; exact wf_writeAll_of_writable hw h.memWf
  case fontIntact =>
    intro k
    rw [byteAt_eq, hmem, hp, read_writeAll_font s.mem hw k]
    exact h.fontIntact k
  case spBound => rw [hp]; exact exec_sp_le e h.spBound
  case latchedKeyHeld =>
    intro hl
    rw [State.key, exec_keys e, exec_latchedKey e]
    exact h.latchedKeyHeld ((exec_latched e).symm.trans hl)

theorem step (e : Machine.step s = .next t) : t.Inv := by
  rcases step_cases s with ⟨c, -, e'⟩ | ⟨-, -, e'⟩ | ⟨-, -, e'⟩ | ⟨-, w, -, -, e'⟩ | ⟨-, w, i, -, -, e'⟩ <;>
    rw [e'] at e
  · cases e
  · obtain rfl := Host.Outcome.next.inj e
    exact h
  · obtain rfl := Host.Outcome.next.inj e
    exact h.recordFault _
  · obtain rfl := Host.Outcome.next.inj e
    exact h.advancePc.recordFault _
  · exact h.advancePc.exec e

end State.Inv

/-- Settles O59: a step records a fault, or runs an instruction, and an instruction stores only where a program may
write. -/
theorem everyStepKeepsTheInvariant : Obligations.EveryStepKeepsTheInvariant := fun _ _ h e => h.step e

end Sys2Proof.Machine
end

section
/-! PROOFS. What each host call does and leaves alone: the tick, the press, the release, load and reset (R214 to R218,
R250 to R252). -/

namespace Sys2Proof.Machine

/-! ### The tick (R214, R215) -/

theorem tickTimers_onlyChanges (s : State) : OnlyChanges [.dt, .st] s (tickTimers s).1 :=
  (setDt_onlyChanges s _).append (setSt_onlyChanges _ _)

/-- A timer at 0 stays there, and another goes down by one. -/
theorem countDown_toNat (b : Byte) : (if b = 0 then 0 else b - 1).toNat = b.toNat - 1 := by
  split_ifs with h
  · rw [h]; rfl
  · have hb : b.toNat ≠ 0 := fun e => h (BitVec.eq_of_toNat_eq e)
    bv_omega

/-- Settles O47: both timers count down by the one rule. -/
theorem tickCountsDownAndSignalsSound : Obligations.TickCountsDownAndSignalsSound := by
  intro s
  refine ⟨_, _, rfl, countDown_toNat s.dt, countDown_toNat s.st, ?_, tickTimers_onlyChanges s⟩
  rw [tickTimers, decide_eq_true_eq, ne_eq, ← BitVec.toNat_inj]
  rfl

/-! ### The press (R216, R218) -/

/-- The machine after a press of `k` that satisfies FX0A with register `x`. -/
def State.satisfied (s : State) (k : Key) (x : Reg) : State :=
  (((s.setKey k true).setV x (keyByte ((s.setKey k true).lowestKeyOr k))).advancePc).latch k

/-- The keys do not reach the fetch. -/
theorem waitRegister_setKey (s : State) (k : Key) (b : Bool) : waitRegister (s.setKey k b) = waitRegister s := rfl

theorem press_of_waiting {s : State} {x : Reg} (k : Key) (hr : s.Running) (hx : waitRegister s = some x) :
    press k s = (s.satisfied k x, true) := by
  unfold press
  dsimp only
  rw [waitRegister_setKey, hx, State.setKey_fault, State.setKey_latched, hr.1, hr.2]
  rfl

theorem press_of_not_waiting {s : State} (k : Key) (h : ¬ s.Running ∨ waitRegister s = none) :
    press k s = (s.setKey k true, false) := by
  unfold press
  dsimp only
  rw [waitRegister_setKey, State.setKey_fault, State.setKey_latched]
  split_ifs with hs
  · rfl
  · have hr : s.Running := by
      simpa [State.Running] using hs
    rw [h.resolve_left (not_not_intro hr)]

/-- A press satisfies a waiting machine or sets the key alone. -/
theorem press_cases (k : Key) (s : State) :
    (∃ x, s.Running ∧ waitRegister s = some x ∧ press k s = (s.satisfied k x, true)) ∨
    press k s = (s.setKey k true, false) := by
  by_cases hr : s.Running
  · cases hx : waitRegister s with
    | some x => exact .inl ⟨x, hr, rfl, press_of_waiting k hr hx⟩
    | none => exact .inr (press_of_not_waiting k (.inr hx))
  · exact .inr (press_of_not_waiting k (.inl hr))

theorem satisfied_onlyChanges (s : State) (k : Key) (x : Reg) :
    OnlyChanges [.regs, .pc, .keys, .latched, .latchedKey] s (s.satisfied k x) :=
  ((((setKey_onlyChanges s k true).append (setV_onlyChanges _ x _)).append (advancePc_onlyChanges _)).append
    (latch_onlyChanges _ k)).mono (by decide)

theorem satisfied_key (s : State) (k j : Key) (x : Reg) :
    (s.satisfied k x).key j = if j = k then true else s.key j := State.key_setKey s k j true

theorem press_key (k j : Key) (s : State) : (press k s).1.key j = if j = k then true else s.key j := by
  rcases press_cases k s with ⟨x, -, -, e⟩ | e <;> rw [e]
  · exact satisfied_key s k j x
  · exact State.key_setKey s k j true

theorem keyByte_toNat (k : Key) : (keyByte k).toNat = k.val := by
  have := k.isLt
  rw [keyByte, BitVec.toNat_ofNat, Nat.mod_eq_of_lt (by omega)]

/-- Once `k` is pressed, the lowest pressed key is the least of `k` and the keys pressed before. -/
theorem lowestKeyOr_setKey {s : State} {k m : Key} (hm : m = k ∨ s.key m = true) (hle : m ≤ k)
    (hlow : ∀ j : Key, j < m → s.key j = false) : (s.setKey k true).lowestKeyOr k = m := by
  have hsome : (s.setKey k true).lowestKey = some m := by
    refine lowestKey_eq_some.2 ⟨?_, fun j hj => ?_⟩
    · rw [State.key_setKey]
      split_ifs with e
      · rfl
      · exact hm.resolve_left e
    · rw [State.key_setKey, if_neg (hj.trans_le hle).ne, hlow j hj]
  rw [State.lowestKeyOr, hsome, Option.getD_some]

/-- Settles O52: a press does one of two things, and which one, the wait at pc says. -/
theorem pressSatisfiesAWaitingKeyRead : Obligations.PressSatisfiesAWaitingKeyRead := by
  intro s k
  refine ⟨by rw [press_key, if_pos rfl], fun j hj => by rw [press_key, if_neg hj], ?_, fun h => ?_⟩
  · intro x w m hr hf hd hm hle hlow
    refine ⟨_, press_of_waiting k hr (waitRegister_eq_some.2 ⟨w, hf, hd⟩), ?_, rfl, rfl, rfl, ?_,
      satisfied_onlyChanges s k x⟩
    · have hv : (s.satisfied k x).getV x = keyByte ((s.setKey k true).lowestKeyOr k) := getV_setV_same _ x _
      rw [hv, keyByte_toNat, lowestKeyOr_setKey hm hle hlow]
    · exact setV_regsKeptBut (s.setKey k true) x _
  · refine ⟨_, press_of_not_waiting k (h.imp_right fun hno => ?_), setKey_onlyChanges s k true⟩
    rw [Option.eq_none_iff_forall_ne_some]
    intro x hx
    obtain ⟨w, hf, hd⟩ := waitRegister_eq_some.1 hx
    exact hno w x hf hd

/-! ### The release (R217) -/

theorem release_latched_key {s : State} {k : Key} (h : s.latched = true ∧ k = s.latchedKey) :
    release k s = (s.setKey k false).unlatch := by
  unfold release
  exact if_pos (Bool.and_eq_true_iff.2 ⟨h.1, decide_eq_true h.2⟩)

theorem release_other_key {s : State} {k : Key} (h : ¬ (s.latched = true ∧ k = s.latchedKey)) :
    release k s = s.setKey k false := by
  unfold release
  exact if_neg fun e => h ((Bool.and_eq_true_iff.1 e).imp_right of_decide_eq_true)

theorem release_key (k j : Key) (s : State) : (release k s).key j = if j = k then false else s.key j := by
  by_cases h : s.latched = true ∧ k = s.latchedKey
  · rw [release_latched_key h, State.unlatch_key, State.key_setKey]
  · rw [release_other_key h, State.key_setKey]

theorem release_onlyChanges (k : Key) (s : State) : OnlyChanges [.keys, .latched] s (release k s) := by
  by_cases h : s.latched = true ∧ k = s.latchedKey
  · rw [release_latched_key h]
    exact (setKey_onlyChanges s k false).append (unlatch_onlyChanges _)
  · rw [release_other_key h]
    exact (setKey_onlyChanges s k false).mono (by decide)

theorem release_latched (k : Key) (s : State) :
    (release k s).latched = true ↔ s.latched = true ∧ k ≠ s.latchedKey := by
  by_cases h : s.latched = true ∧ k = s.latchedKey
  · rw [release_latched_key h, State.unlatch_latched]
    exact ⟨nofun, fun hk => (hk.2 h.2).elim⟩
  · rw [release_other_key h, State.setKey_latched]
    exact ⟨fun hl => ⟨hl, fun hk => h ⟨hl, hk⟩⟩, fun hk => hk.1⟩

/-- Settles O53, by the two cases of a release: of the latched key, or of another. -/
theorem releaseEndsTheLatchOfItsKey : Obligations.ReleaseEndsTheLatchOfItsKey := fun s k =>
  ⟨by rw [release_key, if_pos rfl], fun j hj => by rw [release_key, if_neg hj], release_latched k s,
    release_onlyChanges k s⟩

/-! ### Load and reset (R250 to R252) -/

theorem load_ok {bytes : List Byte} (h : bytes.length ≤ Config.maxProgram) (s : State) :
    load bytes s = (s.setMem (s.mem.writeAll s.params Config.programBase bytes), .ok) := if_neg (Nat.not_lt.2 h)

theorem load_tooLong {bytes : List Byte} (h : Config.maxProgram < bytes.length) (s : State) :
    load bytes s = (s, .loadCapacity bytes.length) := if_pos h

theorem load_onlyChanges (bytes : List Byte) (s : State) : OnlyChanges [.mem] s (load bytes s).1 := by
  rcases Nat.lt_or_ge Config.maxProgram bytes.length with h | h
  · rw [load_tooLong h]
    exact .refl _ s
  · rw [load_ok h]
    exact setMem_onlyChanges s _

/-- Settles O56: the bytes are written in order from 0x200, or the length is over the limit. -/
theorem loadCopiesTheProgramOrReportsCapacity : Obligations.LoadCopiesTheProgramOrReportsCapacity := by
  intro s bytes
  refine ⟨fun h => ?_, fun h => ?_⟩
  · refine ⟨_, by rw [hostCall, load_ok h], writeAll_byteAt s _ bytes, writeAll_bytesKeptBut s _ bytes,
      setMem_onlyChanges s _⟩
  · rw [hostCall, load_tooLong h]

/-- A load copies the same bytes into any two machines that differ in their count of draws. -/
theorem load_constructAt_draws (p : Config.Params) (n : Nat) (bytes : List Byte) :
    ({ (load bytes (State.constructAt p n)).1 with draws := 0 } : State) = (load bytes (State.constructAt p 0)).1 := by
  rcases Nat.lt_or_ge Config.maxProgram bytes.length with h | h
  · rw [load_tooLong h, load_tooLong h]
    rfl
  · rw [load_ok h, load_ok h]
    rfl

/-- Settles O57: reset gives the constructed machine but for the count of draws, which a load does not look at. -/
theorem resetThenLoadEqualsAFreshLoad : Obligations.ResetThenLoadEqualsAFreshLoad := fun s bytes =>
  load_constructAt_draws s.params s.draws bytes

/-! ### Lists of host calls -/

/-- What every admitted call keeps, every list of admitted calls keeps. -/
theorem hostRun_keeps {P : State → Prop} {cs : List HostCall} (hP : ∀ c ∈ cs, ∀ s, P s → P (hostCall c s).1)
    {s : State} (hs : P s) : P (hostRun cs s) := by
  induction cs generalizing s with
  | nil => exact hs
  | cons c cs ih =>
    exact ih (fun d hd => hP d (List.mem_cons_of_mem c hd)) (hP c List.mem_cons_self s hs)

/-! ### A recorded fault (R132, R209) -/

/-- No call but reset runs anything on a faulted machine. -/
theorem hostCall_faulted_onlyChanges {c : HostCall} {s : State} {f : Fault} (hc : c ≠ .reset)
    (hf : s.fault = some f) : OnlyChanges [.keys, .dt, .st, .mem, .latched] s (hostCall c s).1 := by
  cases c with
  | reset => exact absurd rfl hc
  | step => rw [hostCall_step_faulted hf]; exact .refl _ s
  | tickTimers => exact (tickTimers_onlyChanges s).mono (by decide)
  | press k =>
    have hr : ¬ s.Running := fun hr => by rw [hr.1] at hf; cases hf
    rw [hostCall, press_of_not_waiting k (.inl hr)]
    exact (setKey_onlyChanges s k true).mono (by decide)
  | release k => exact (release_onlyChanges k s).mono (by decide)
  | load bytes => exact (load_onlyChanges bytes s).mono (by decide)
  | display => exact .refl _ s

theorem hostRun_faulted {cs : List HostCall} {s : State} {f : Fault} (hcs : HostCall.reset ∉ cs)
    (hf : s.fault = some f) : (hostRun cs s).fault = some f ∧
      OnlyChanges [.keys, .dt, .st, .mem, .latched] s (hostRun cs s) := by
  refine hostRun_keeps (P := fun u => u.fault = some f ∧ OnlyChanges [.keys, .dt, .st, .mem, .latched] s u) ?_
    ⟨hf, .refl _ s⟩
  rintro c hc u ⟨hu, hsu⟩
  have hcall := hostCall_faulted_onlyChanges (ne_of_mem_of_not_mem hc hcs) hu
  exact ⟨Eq.trans (hcall .fault (by decide)) hu, hsu.trans hcall⟩

/-- Settles O12: no call but reset writes the fault record of a faulted machine, and reset clears it. -/
theorem faultStaysUntilReset : Obligations.FaultStaysUntilReset := fun cs s _ hf =>
  ⟨fun hcs => hostRun_faulted hcs hf, by rw [hostRun_append]; rfl⟩

/-! ### Latched mode (R131, R216, R217) -/

/-- No fault is recorded, and the machine is latched on `k`, which is pressed. -/
structure State.LatchedOn (k : Key) (s : State) : Prop where
  unfaulted : s.fault = none
  latched : s.latched = true
  latchedKey : s.latchedKey = k
  held : s.key k = true

theorem satisfied_latchedOn {s : State} (k : Key) (x : Reg) (hr : s.Running) : (s.satisfied k x).LatchedOn k where
  unfaulted := hr.1
  latched := rfl
  latchedKey := rfl
  held := by rw [satisfied_key, if_pos rfl]

namespace State.LatchedOn

variable {k : Key} {s : State} (h : s.LatchedOn k)
include h

theorem hostCall_step : hostCall .step s = (s, .step .latched) := hostCall_step_latched h.unfaulted h.latched

/-- What leaves fault and latch alone and the key pressed. -/
theorem of_onlyChanges {t : State} (hst : OnlyChanges [.keys, .dt, .st, .mem] s t) (hk : t.key k = true) :
    t.LatchedOn k where
  unfaulted := Eq.trans (hst .fault (by decide)) h.unfaulted
  latched := Eq.trans (hst .latched (by decide)) h.latched
  latchedKey := Eq.trans (hst .latchedKey (by decide)) h.latchedKey
  held := hk

theorem hostCall_press (j : Key) : (hostCall (.press j) s).1 = s.setKey j true := by
  have hr : ¬ s.Running := fun hr => by have hl := h.latched; rw [hr.2] at hl; cases hl
  rw [hostCall, press_of_not_waiting j (.inl hr)]

theorem hostCall_onlyChanges {c : HostCall} (hrel : c ≠ .release k) (hres : c ≠ .reset) :
    OnlyChanges [.keys, .dt, .st, .mem] s (hostCall c s).1 := by
  cases c with
  | reset => exact absurd rfl hres
  | step => rw [h.hostCall_step]; exact .refl _ s
  | tickTimers => exact (tickTimers_onlyChanges s).mono (by decide)
  | press j => rw [h.hostCall_press]; exact (setKey_onlyChanges s j true).mono (by decide)
  | release j =>
    have hj : ¬ (s.latched = true ∧ j = s.latchedKey) := fun e => hrel (by rw [e.2, h.latchedKey])
    rw [hostCall, release_other_key hj]
    exact (setKey_onlyChanges s j false).mono (by decide)
  | load bytes => exact (load_onlyChanges bytes s).mono (by decide)
  | display => exact .refl _ s

theorem hostCall_held {c : HostCall} (hrel : c ≠ .release k) (hres : c ≠ .reset) : (hostCall c s).1.key k = true := by
  cases c with
  | reset => exact absurd rfl hres
  | step => rw [h.hostCall_step]; exact h.held
  | tickTimers => exact h.held
  | press j =>
    rw [hostCall, press_key]
    split_ifs
    · rfl
    · exact h.held
  | release j =>
    rw [hostCall, release_key, if_neg fun e => hrel (by rw [e])]
    exact h.held
  | load bytes =>
    rw [State.key, hostCall, load_onlyChanges bytes s .keys (by decide)]
    exact h.held
  | display => exact h.held

theorem hostRun {cs : List HostCall} (hrel : HostCall.release k ∉ cs) (hres : HostCall.reset ∉ cs) :
    (hostRun cs s).LatchedOn k ∧ OnlyChanges [.keys, .dt, .st, .mem] s (hostRun cs s) := by
  refine hostRun_keeps (P := fun u => u.LatchedOn k ∧ OnlyChanges [.keys, .dt, .st, .mem] s u) ?_ ⟨h, .refl _ s⟩
  rintro c hc u ⟨hu, hsu⟩
  have hc₁ : c ≠ .release k := ne_of_mem_of_not_mem hc hrel
  have hc₂ : c ≠ .reset := ne_of_mem_of_not_mem hc hres
  have hcall := hu.hostCall_onlyChanges hc₁ hc₂
  exact ⟨hu.of_onlyChanges hcall (hu.hostCall_held hc₁ hc₂), hsu.trans hcall⟩

theorem hostRun_steps (n : Nat) : Machine.hostRun (List.replicate n .step) s = s := by
  refine hostRun_keeps (P := fun u => u = s) ?_ rfl
  rintro c hc _ rfl
  rw [List.eq_of_mem_replicate hc, h.hostCall_step]

theorem release_eq : release k s = (s.setKey k false).unlatch := release_latched_key ⟨h.latched, h.latchedKey.symm⟩

end State.LatchedOn

/-- Settles O54: a press that returns true leaves the machine latched on its key, every admitted call keeps that, and
the release ends it with pc where the press put it. -/
theorem latchedModeLastsUntilTheRelease : Obligations.LatchedModeLastsUntilTheRelease := by
  intro s t k hr hpress
  obtain ⟨x, rfl⟩ : ∃ x, t = s.satisfied k x := by
    rcases press_cases k s with ⟨x, -, -, e⟩ | e <;> rw [e] at hpress
    · exact ⟨x, (Prod.ext_iff.1 hpress).1.symm⟩
    · cases hpress
  have ht := satisfied_latchedOn k x hr
  refine ⟨ht.hostRun_steps, fun cs hrel hres => ?_⟩
  obtain ⟨hu, hframe⟩ := ht.hostRun hrel hres
  refine ⟨hu.latched, hu.latchedKey, hu.held, hframe, hu.hostCall_step, ?_, ?_⟩
  · rw [hostCall, hu.release_eq]
    exact ⟨hu.unfaulted, rfl⟩
  · rw [hostCall, hu.release_eq]
    exact hframe .pc (by decide)

/-! ### The invariant under the host's calls -/

theorem constructAt_inv (p : Config.Params) (n : Nat) : (State.constructAt p n).Inv where
  memWf := Memory.wf_nil p
  fontIntact k := (constructAt_byteAt p n _).trans (resetByte_font p k)
  spBound := Fin.zero_le _
  latchedKeyHeld := nofun

/-- Settles O58: a constructed machine lists no byte, nests no call and is not latched. -/
theorem invariantHoldsAtReset : Obligations.InvariantHoldsAtReset :=
  ⟨constructAt_inv defaultParams 0, fun p => constructAt_inv p 0⟩

namespace State.Inv

variable {s : State} (h : s.Inv)
include h

theorem setKey_true (k : Key) : (s.setKey k true).Inv where
  memWf := h.memWf
  fontIntact := h.fontIntact
  spBound := h.spBound
  latchedKeyHeld hl := by
    rw [State.key_setKey]
    split_ifs
    · rfl
    · exact h.latchedKeyHeld hl

theorem satisfied (k : Key) (x : Reg) : (s.satisfied k x).Inv where
  memWf := h.memWf
  fontIntact := h.fontIntact
  spBound := h.spBound
  latchedKeyHeld _ := (satisfied_key s k k x).trans (if_pos rfl)

theorem press (k : Key) : (Machine.press k s).1.Inv := by
  rcases press_cases k s with ⟨x, -, -, e⟩ | e <;> rw [e]
  · exact h.satisfied k x
  · exact h.setKey_true k

/-- A release of the latched key ends latched mode, and of another key leaves the latched key pressed. -/
theorem release (k : Key) : (Machine.release k s).Inv := by
  have hmem : (Machine.release k s).mem = s.mem := by
    by_cases hk : s.latched = true ∧ k = s.latchedKey
    · rw [release_latched_key hk]; rfl
    · rw [release_other_key hk]; rfl
  have kept := release_onlyChanges k s
  have hp : (Machine.release k s).params = s.params := kept .params (by decide)
  constructor
  case memWf => rw [hmem, hp]; exact h.memWf
  case fontIntact => intro j; rw [byteAt_eq, hmem, hp]; exact h.fontIntact j
  case spBound => rw [hp, kept .sp (by decide)]; exact h.spBound
  case latchedKeyHeld =>
    intro hl
    obtain ⟨hs, hk⟩ := (release_latched k s).1 hl
    rw [release_key, kept .latchedKey (by decide), if_neg hk.symm]
    exact h.latchedKeyHeld hs

/-- A program lies above the font and ends with memory (R252). -/
theorem load (bytes : List Byte) : (Machine.load bytes s).1.Inv := by
  rcases Nat.lt_or_ge Config.maxProgram bytes.length with hlen | hlen
  · rw [load_tooLong hlen]
    exact h
  · rw [load_ok hlen]
    have hend : Config.programBase + bytes.length ≤ Config.memSize := Nat.add_le_add_left hlen _
    refine h.setMem (Memory.wf_writeAll _ _ _ bytes hend h.memWf) fun k => writeAll_bytesKeptBut s _ bytes _ (.inl ?_)
    have := k.isLt
    simp only [Config.programBase, Config.fontBase]
    omega

theorem hostCall (c : HostCall) : (Machine.hostCall c s).1.Inv := by
  cases c with
  | step =>
    show (stepState s).Inv
    unfold stepState
    split
    next t e => exact h.step e
    all_goals exact h
  | tickTimers => exact h.of_eq rfl rfl rfl rfl rfl rfl
  | press k => exact h.press k
  | release k => exact h.release k
  | load bytes => exact h.load bytes
  | reset => exact constructAt_inv s.params s.draws
  | display => exact h

end State.Inv

theorem step_params {s t : State} (e : step s = .next t) : t.params = s.params := by
  rcases step_cases s with ⟨c, -, e'⟩ | ⟨-, -, e'⟩ | ⟨-, -, e'⟩ | ⟨-, w, -, -, e'⟩ | ⟨-, w, i, -, -, e'⟩ <;>
    rw [e'] at e
  · cases e
  · obtain rfl := Host.Outcome.next.inj e
    rfl
  · obtain rfl := Host.Outcome.next.inj e
    rfl
  · obtain rfl := Host.Outcome.next.inj e
    rfl
  · exact (exec_params e).trans s.advancePc_params

theorem hostCall_params (c : HostCall) (s : State) : (hostCall c s).1.params = s.params := by
  cases c with
  | step =>
    show (stepState s).params = _
    unfold stepState
    split
    next t e => exact step_params e
    all_goals rfl
  | press k =>
    rw [hostCall]
    rcases press_cases k s with ⟨x, -, -, e⟩ | e <;> rw [e] <;> rfl
  | release k => exact release_onlyChanges k s .params (by decide)
  | load bytes => exact load_onlyChanges bytes s .params (by decide)
  | tickTimers | reset | display => rfl

/-- Settles O60: every call keeps the invariant and the parameters, so every list of calls does. -/
theorem everyHostRunKeepsTheInvariant : Obligations.EveryHostRunKeepsTheInvariant := fun _ s hs =>
  hostRun_keeps (P := fun u => u.Inv ∧ u.params = s.params)
    (fun c _ u ⟨hu, hp⟩ => ⟨hu.hostCall c, (hostCall_params c u).trans hp⟩) ⟨hs, rfl⟩

end Sys2Proof.Machine
end

section
/-! PROOFS. The arithmetic instructions: their words, and what the result and the flag are as numbers (40_alu.md, R84,
R100 to R102, R111 to R121). -/

namespace Sys2Proof.Machine

/-! ### A result and its flag (R102) -/

/-- VF holds the flag whatever X is, since it is written last. -/
theorem setResultFlag_flag (s : State) (x : Reg) (b : Byte) (f : Bool) :
    (s.setResultFlag x b f).getV 15 = flagByte f := by
  rw [State.getV_setResultFlag, if_pos rfl]

theorem setResultFlag_result (s : State) {x : Reg} (hx : x ≠ 15) (b : Byte) (f : Bool) :
    (s.setResultFlag x b f).getV x = b := by
  rw [State.getV_setResultFlag, if_neg hx, if_pos rfl]

theorem flagByte_decide (p : Prop) [Decidable p] : flagByte (decide p) = if p then 1 else 0 := by
  by_cases h : p <;> simp [flagByte, h]

theorem sub_toNat (a b : Byte) : (a - b).toNat = (a.toNat + 256 - b.toNat) % 256 := by bv_omega

/-! ### Without a flag -/

/-- Settles O17: both are one write of V[X]. -/
theorem immediateAddAndMoveWriteNoFlag : Obligations.ImmediateAddAndMoveWriteNoFlag := fun x y nn s =>
  ⟨⟨_, rfl, by rw [getV_setV_same, BitVec.toNat_add], setV_regsKeptBut s x _, setV_onlyChanges s x _⟩,
    ⟨_, rfl, getV_setV_same s x _, setV_regsKeptBut s x _, setV_onlyChanges s x _⟩⟩

/-- Settles O23: whatever the draw is, a bit outside the mask is 0. -/
theorem randomLoadMasksAFreeDraw : Obligations.RandomLoadMasksAFreeDraw := by
  intro x nn s
  have hv : ((s.setV x (s.draw &&& nn)).countDraw).getV x = s.draw &&& nn := getV_setV_same s x _
  refine ⟨_, rfl, fun b => ?_, fun h => ?_, rfl, setV_regsKeptBut s x _, rnd_writesOnly x nn s _ rfl⟩
  · rw [hv, BitVec.getLsbD_and]
    rfl
  · rw [hv, h]
    exact BitVec.and_zero

/-! ### With a flag -/

/-- Settles O18: each is the bitwise operation of the two registers with the flag 0. -/
theorem logicCombinesBitsAndClearsFlag : Obligations.LogicCombinesBitsAndClearsFlag := by
  intro x y s
  refine ⟨⟨decodesTo_formXYN rfl rfl rfl, ?_⟩, ⟨decodesTo_formXYN rfl rfl rfl, ?_⟩,
    ⟨decodesTo_formXYN rfl rfl rfl, ?_⟩⟩
  all_goals refine ⟨_, rfl, setResultFlag_flag s x _ _, fun hx b => ?_, setResultFlag_regsKeptBut s x _ _,
    setResultFlag_onlyChanges s x _ _⟩
  · rw [setResultFlag_result s hx, BitVec.getLsbD_or]
  · rw [setResultFlag_result s hx, BitVec.getLsbD_and]
  · rw [setResultFlag_result s hx, BitVec.getLsbD_xor]

/-- Settles O19: the result wraps modulo 256 and the carry is taken from the unbounded sum. -/
theorem addWritesSumAndCarry : Obligations.AddWritesSumAndCarry := by
  intro x y s
  refine ⟨decodesTo_formXYN rfl rfl rfl, _, rfl, fun hx => ?_, ?_, setResultFlag_regsKeptBut s x _ _,
    setResultFlag_onlyChanges s x _ _⟩
  · rw [setResultFlag_result s hx, BitVec.toNat_add]
  · rw [setResultFlag_flag, carryOut, flagByte_decide]

/-- Settles O20: a difference of bytes wraps modulo 256, and no borrow means V[Y] ≤ V[X]. -/
theorem subWritesDifferenceAndNoBorrow : Obligations.SubWritesDifferenceAndNoBorrow := by
  intro x y s
  refine ⟨decodesTo_formXYN rfl rfl rfl, _, rfl, fun hx => ?_, ?_, setResultFlag_regsKeptBut s x _ _,
    setResultFlag_onlyChanges s x _ _⟩
  · rw [setResultFlag_result s hx, sub_toNat]
  · rw [setResultFlag_flag, noBorrow, flagByte_decide]

/-- Settles O21: the subtraction with its operands exchanged. -/
theorem subnSubtractsInReverse : Obligations.SubnSubtractsInReverse := by
  intro x y s
  refine ⟨_, rfl, fun hx => ?_, ?_, setResultFlag_regsKeptBut s x _ _, setResultFlag_onlyChanges s x _ _⟩
  · rw [setResultFlag_result s hx, sub_toNat]
  · rw [setResultFlag_flag, noBorrow, flagByte_decide]

theorem flagByte_lowBit (b : Byte) : (flagByte (lowBit b)).toNat = b.toNat % 2 := by
  unfold lowBit
  rw [BitVec.getLsbD, Nat.testBit_zero, flagByte_decide]
  split_ifs with h
  · exact h.symm
  · exact (Nat.mod_two_ne_one.1 h).symm

theorem flagByte_highBit (b : Byte) : (flagByte (highBit b)).toNat = b.toNat / 128 := by
  have hb := b.isLt
  unfold highBit
  rw [BitVec.getLsbD, Nat.testBit_eq_decide_div_mod_eq, flagByte_decide]
  split_ifs with h
  · show 1 = _
    omega
  · show 0 = _
    omega

theorem shiftRight_one_toNat (b : Byte) : (b >>> 1).toNat = b.toNat / 2 := by
  rw [BitVec.toNat_ushiftRight, Nat.shiftRight_eq_div_pow]

theorem shiftLeft_one_toNat (b : Byte) : (b <<< 1).toNat = b.toNat * 2 % 256 := by
  rw [BitVec.toNat_shiftLeft, Nat.shiftLeft_eq]

/-- Settles O22: a shift by one halves or doubles V[Y], and its flag is the remainder or the carry. -/
theorem shiftsReadYAndReportTheBitLost : Obligations.ShiftsReadYAndReportTheBitLost := by
  intro x y s
  refine ⟨⟨decodesTo_formXYN rfl rfl rfl, ?_⟩, ⟨decodesTo_formXYN rfl rfl rfl, ?_⟩⟩
  all_goals refine ⟨_, rfl, fun hx => ?_, ?_, setResultFlag_regsKeptBut s x _ _, setResultFlag_onlyChanges s x _ _⟩
  · rw [setResultFlag_result s hx, shiftRight_one_toNat]
  · rw [setResultFlag_flag, flagByte_lowBit]
  · rw [setResultFlag_result s hx, shiftLeft_one_toNat]
  · rw [setResultFlag_flag, flagByte_highBit]

end Sys2Proof.Machine
end

section
/-! PROOFS. Calls and returns, jumps, skips, SYS, and the key instructions (41_control.md, 45_input.md). -/

namespace Sys2Proof.Machine

/-! ### Calls and returns (R133, R136) -/

/-- Settles O25: the pushed entry is the one at sp, and no other entry is written. -/
theorem callPushesReturnAddressOrOverflows : Obligations.CallPushesReturnAddressOrOverflows := by
  intro nnn s
  refine ⟨fun h => ?_, fun h => ⟨_, call_full (addrOperand nnn) h, rfl, recordFault_onlyChanges s _⟩⟩
  obtain ⟨hs, hb, e⟩ := call_next (addrOperand nnn) h
  exact ⟨_, e, Vector.getElem?_set_self hs, rfl, addrOperand_toNat nnn, fun j hj => Vector.getElem?_set_ne hs hj.symm,
    (call_onlyChanges e).without (ps := [.stack, .sp, .pc]) rfl⟩

/-- A return from a stack in use, field by field. -/
theorem exec_ret_next {s : State} (h : s.sp ≠ 0) :
    ∃ t, exec .ret s = .next t ∧ some t.pc = s.stack[s.sp.val - 1]? ∧ t.sp.val + 1 = s.sp.val ∧ t.stack = s.stack ∧
      OnlyChanges [.sp, .pc] s t := by
  obtain ⟨hs, hb, e⟩ := popPc_next h
  have hpos : s.sp.val ≠ 0 := fun e => h (Fin.ext e)
  exact ⟨_, e, (Vector.getElem?_eq_getElem hs).symm, Nat.sub_add_cancel (Nat.pos_of_ne_zero hpos), rfl,
    (popPc_onlyChanges e).without (ps := [.sp, .pc]) rfl⟩

/-- Settles O26: the popped entry is the one below sp. -/
theorem returnPopsOrUnderflows : Obligations.ReturnPopsOrUnderflows := by
  intro s
  refine ⟨fun h => ?_, fun h => ⟨_, popPc_empty h, rfl, recordFault_onlyChanges s _⟩⟩
  obtain ⟨t, e, hpc, hsp, -, hframe⟩ := exec_ret_next h
  exact ⟨t, e, hpc, hsp, hframe⟩

/-- Settles O27: the return takes the entry the call pushed, the one at the caller's sp. -/
theorem returnUndoesCall : Obligations.ReturnUndoesCall := by
  intro nnn s t u hroom hcall hstack hsp
  obtain ⟨t', ht', htop, htsp, -, hbelow, -⟩ := (callPushesReturnAddressOrOverflows nnn s).1 hroom
  obtain rfl := Host.Outcome.next.inj (ht'.symm.trans hcall)
  have husp : u.sp.val = s.sp.val + 1 := by rw [hsp, htsp]
  have hne : u.sp ≠ 0 := fun e => by rw [e] at husp; exact absurd husp.symm (Nat.succ_ne_zero _)
  obtain ⟨v, hv, hpc, hvsp, hvstack, -⟩ := exec_ret_next hne
  refine ⟨v, hv, ?_, Fin.ext (by omega), fun j hj => ?_⟩
  · rw [husp, Nat.add_sub_cancel, hstack, htop] at hpc
    exact Option.some.inj hpc
  · rw [hvstack, hstack, hbelow j hj.ne]

/-! ### Jumps, SYS and the comparing skips (R134, R137 to R142) -/

/-- Settles O28: the sum of a 12-bit and an 8-bit value fits in 16 bits. -/
theorem indirectJumpAddsV0 : Obligations.IndirectJumpAddsV0 := by
  intro nnn s
  refine ⟨_, rfl, ?_, setPc_onlyChanges s _⟩
  have hnnn := nnn.isLt
  have hv := (s.getV 0).isLt
  rw [State.setPc_pc, State.jumpV0Target, BitVec.toNat_add, addrOperand_toNat,
    BitVec.toNat_setWidth_of_le (by decide), Nat.mod_eq_of_lt (by omega)]

/-- Settles O30: the word of SYS is its immediate, zero-extended. -/
theorem sysRecordsItsWordAsUnsupported : Obligations.SysRecordsItsWordAsUnsupported := by
  intro nnn s
  refine ⟨fun hcls hret => decodesTo_of_encode (wellFormed_sys.2 ⟨hcls, hret⟩) ?_,
    _, rfl, by rw [BitVec.ofNat_toNat]; rfl, recordFault_onlyChanges s _⟩
  rw [encode, formNNN_toNat]
  exact Nat.zero_add _

theorem skipIf_pc_toNat (s : State) (p : Prop) [Decidable p] :
    (s.skipIf (decide p)).pc.toNat = if p then (s.pc.toNat + 2) % 65536 else s.pc.toNat := by
  split_ifs with h
  · rw [decide_eq_true h, State.skipIf_true, State.advancePc_pc, BitVec.toNat_add]
    rfl
  · rw [decide_eq_false h, State.skipIf_false]

theorem skipIf_not_pc_toNat (s : State) (p : Prop) [Decidable p] :
    (s.skipIf (decide ¬ p)).pc.toNat = if p then s.pc.toNat else (s.pc.toNat + 2) % 65536 := by
  rw [skipIf_pc_toNat, ite_not]

/-- 5XYn and 9XYn are instructions for n = 0 alone (R86). -/
theorem illegalWord_formXYN {op : Nat} (hop : op = 0x5 ∨ op = 0x9) (x y : Reg) {n : Nat} (hn : 0 < n) (hlt : n < 16) :
    IllegalWord (op * 4096 + 0x100 * x.val + 0x10 * y.val + n) := by
  have hx := x.isLt
  have hy := y.isLt
  have hw : (BitVec.ofNat 16 (op * 4096 + 0x100 * x.val + 0x10 * y.val + n)).toNat =
      op * 4096 + 0x100 * x.val + 0x10 * y.val + n := by
    rw [BitVec.toNat_ofNat, Nat.mod_eq_of_lt (by omega)]
  refine (decode_eq_error _).2 (.inl ⟨?_, ?_⟩) <;> rw [hw] <;> omega

/-- Settles O29: each is one skip under its comparison, and 5XYn and 9XYn are among the illegal words. -/
theorem comparisonSkipsMovePcByTwo : Obligations.ComparisonSkipsMovePcByTwo := fun x y _ s =>
  ⟨⟨decodesTo_formXNN rfl rfl rfl, _, rfl, skipIf_onlyChanges s _, skipIf_pc_toNat s _⟩,
    ⟨decodesTo_formXNN rfl rfl rfl, _, rfl, skipIf_onlyChanges s _, skipIf_not_pc_toNat s _⟩,
    ⟨decodesTo_formXYN rfl rfl rfl, _, rfl, skipIf_onlyChanges s _, skipIf_pc_toNat s _⟩,
    fun _ hn hlt => illegalWord_formXYN (.inl rfl) x y hn hlt,
    ⟨decodesTo_formXYN rfl rfl rfl, _, rfl, skipIf_onlyChanges s _, skipIf_not_pc_toNat s _⟩,
    fun _ hn hlt => illegalWord_formXYN (.inr rfl) x y hn hlt⟩

/-! ### The key instructions (R180 to R182) -/

theorem exec_skp_pressed {x : Reg} {s : State} {k : Key} (hk : (s.getV x).toNat = k.val) :
    exec (.skp x) s = .next (s.skipIf (s.key k)) ∧ exec (.sknp x) s = .next (s.skipIf (!s.key k)) := by
  have hop : keyOperand (s.getV x) = .ok k := by
    rw [keyOperand_ok (hk.trans_lt k.isLt)]
    exact congrArg _ (Fin.ext hk)
  rw [exec_skp_eq_keySkip, exec_sknp_eq_keySkip, hop]
  exact ⟨rfl, rfl⟩

theorem exec_skp_keyIndex {x : Reg} {s : State} (h : 15 < (s.getV x).toNat) :
    exec (.skp x) s = .next (s.recordFault (.keyIndex (s.getV x))) ∧
      exec (.sknp x) s = .next (s.recordFault (.keyIndex (s.getV x))) := by
  rw [exec_skp_eq_keySkip, exec_sknp_eq_keySkip, keyOperand_error h]
  exact ⟨rfl, rfl⟩

/-- Settles O49: the key operand selects a key or faults, and the key decides the skip. -/
theorem keySkipsTestTheLatch : Obligations.KeySkipsTestTheLatch := by
  intro x s
  refine ⟨fun k hk => ?_, fun h => ?_⟩
  · obtain ⟨hskp, hsknp⟩ := exec_skp_pressed hk
    refine ⟨⟨_, hskp, skipIf_onlyChanges s _, ?_⟩, ⟨_, hsknp, skipIf_onlyChanges s _, ?_⟩⟩
    · rw [← skipIf_pc_toNat, Bool.decide_eq_true]
    · rw [← skipIf_not_pc_toNat, decide_not, Bool.decide_eq_true]
  · obtain ⟨hskp, hsknp⟩ := exec_skp_keyIndex h
    exact ⟨⟨_, hskp, rfl, recordFault_onlyChanges s _⟩, ⟨_, hsknp, rfl, recordFault_onlyChanges s _⟩⟩

theorem exec_ldVxK_lowest {s : State} {k : Key} (x : Reg) (hk : s.lowestKey = some k) :
    exec (.ldVxK x) s = .next (s.setV x (keyByte k)) := by
  rcases exec_ldVxK_cases x s with ⟨j, hj, e⟩ | ⟨hn, -⟩
  · rw [e, Option.some.inj (hj.symm.trans hk)]
  · rw [hn] at hk; cases hk

theorem exec_ldVxK_none {s : State} (x : Reg) (hk : s.lowestKey = none) : exec (.ldVxK x) s = .next s.rewindPc := by
  rcases exec_ldVxK_cases x s with ⟨j, hj, -⟩ | ⟨-, e⟩
  · rw [hj] at hk; cases hk
  · exact e

theorem advancePc_rewindPc (s : State) : s.advancePc.rewindPc = s := by
  show s.setPc (s.pc + 2 - 2) = s
  rw [BitVec.add_sub_cancel]
  rfl

/-- A whole step over FX0A with no key pressed goes forward and back again (R182). -/
theorem hostCall_step_repeats {s : State} {w : Word} {x : Reg} (hr : s.Running) (hf : fetch s = .ok w)
    (hd : decode w = .instr (.ldVxK x)) (hk : ∀ k, s.key k = false) : hostCall .step s = (s, .step .repeated) := by
  have hstep : step s = .next s := by
    rw [step_instr hr hf hd, exec_ldVxK_none (s := s.advancePc) x (lowestKey_eq_none.2 hk), advancePc_rewindPc]
  rw [hostCall, stepState_next hstep, stepReply_unfaulted hr.2 hstep hr.1,
    if_pos ((selfRepeats_iff hf hd).2 ⟨⟨x, rfl⟩, hk⟩)]

/-- Settles O50: the lowest pressed key decides between the two outcomes, and a rewind undoes the advance of pc. -/
theorem waitForKeyStoresLowestOrRepeats : Obligations.WaitForKeyStoresLowestOrRepeats :=
  ⟨fun x s k hk hlow => ⟨_, exec_ldVxK_lowest x (lowestKey_eq_some.2 ⟨hk, hlow⟩),
      by rw [getV_setV_same, keyByte_toNat], setV_regsKeptBut s x _, setV_onlyChanges s x _⟩,
    fun x s hk => ⟨_, exec_ldVxK_none x (lowestKey_eq_none.2 hk), rfl, rewindPc_onlyChanges s⟩,
    fun _ _ _ => hostCall_step_repeats⟩

end Sys2Proof.Machine
end

section
/-! PROOFS. The index register, and the stores and loads of digits and registers (42_index_memory.md). -/

namespace Sys2Proof.Machine

/-! ### I and the glyph address (R151, R152) -/

theorem indexPlus_toNat (s : State) (b : Byte) : (s.indexPlus b).toNat = (s.index.toNat + b.toNat) % 65536 := by
  rw [State.indexPlus, BitVec.toNat_add, BitVec.toNat_setWidth_of_le (by decide)]

theorem glyphIndex_le (p : Config.Params) (b : Byte) : glyphIndex p b ≤ b.toNat := by
  unfold glyphIndex
  split
  · exact le_rfl
  · exact Nat.mod_le _ _

theorem glyphAddr_toNat (p : Config.Params) (b : Byte) : (glyphAddr p b).toNat = 0x050 + glyphIndex p b * 5 := by
  have hg := glyphIndex_le p b
  have hb := b.isLt
  rw [glyphAddr, BitVec.toNat_ofNat, Nat.mod_eq_of_lt (by simp only [Config.fontBase]; omega)]

theorem glyphIndex_digit (p : Config.Params) {b : Byte} (h : b.toNat ≤ 15) : glyphIndex p b = b.toNat := by
  unfold glyphIndex
  split
  · rfl
  · exact Nat.mod_eq_of_lt (by omega)

/-- Settles O34: both addresses are sums of 16 bits, and the glyph's is too small to wrap. -/
theorem indexAddWrapsAndGlyphLookupAddressesTheFont : Obligations.IndexAddWrapsAndGlyphLookupAddressesTheFont := by
  intro x s
  have haddr : (s.setIndex (glyphAddr s.params (s.getV x))).index.toNat = 0x050 + glyphIndex s.params (s.getV x) * 5 :=
    glyphAddr_toNat _ _
  refine ⟨⟨_, rfl, indexPlus_toNat s _, setIndex_onlyChanges s _⟩, ⟨_, rfl, setIndex_onlyChanges s _, ?_, ?_, ?_⟩⟩
  · intro hmode
    rw [haddr, glyphIndex, hmode]
  · intro hmode
    rw [haddr, glyphIndex, hmode]
  · intro hdigit
    rw [haddr, glyphIndex_digit _ hdigit]
    exact ⟨rfl, by omega⟩

/-! ### Stores (R153, R154) -/

section
variable {bs : List Byte} {a : Nat} {s : State} {k : State → State}

theorem storeBytes_finish_done (h : Writable a bs.length) :
    (storeBytes bs a s).finish k = .next (k (s.setMem (s.mem.writeAll s.params a bs))) := by
  rw [storeBytes_done s h, finish_done]

theorem storeBytes_finish_raised {j : Nat} {c : Fault} (hj : j < bs.length) (h : Writable a j)
    (hc : WriteFaults (a + j) c) :
    (storeBytes bs a s).finish k = .next ((s.setMem (s.mem.writeAll s.params a (bs.take j))).recordFault c) := by
  rw [storeBytes_raised s hj h hc, finish_raised]

/-- A store that faults at byte `j` keeps every byte but the `j` before it. -/
theorem writeAll_take_bytesKeptBut {j : Nat} (hj : j < bs.length) :
    BytesKeptBut a j s (s.setMem (s.mem.writeAll s.params a (bs.take j))) := by
  have h := writeAll_bytesKeptBut s a (bs.take j)
  rwa [List.length_take_of_le hj.le] at h

/-- A store that faults at byte `j` has stored each byte before it. -/
theorem writeAll_take_byteAt {j r : Nat} (hj : j < bs.length) (hr : r < j) :
    (s.setMem (s.mem.writeAll s.params a (bs.take j))).byteAt (a + r) = bs[r] := by
  rw [writeAll_byteAt s a (bs.take j) r (by rw [List.length_take_of_le hj.le]; exact hr), List.getElem_take]

theorem setMem_recordFault_onlyChanges (m : Memory) (c : Fault) :
    OnlyChanges [.mem, .fault] s ((s.setMem m).recordFault c) :=
  (setMem_onlyChanges s m).append (recordFault_onlyChanges _ c)

end

theorem bcd_hundreds_toNat (b : Byte) : (BitVec.ofNat 8 (b.toNat / 100)).toNat = b.toNat / 100 := by
  have := b.isLt
  rw [BitVec.toNat_ofNat, Nat.mod_eq_of_lt (by omega)]

theorem bcd_tens_toNat (b : Byte) : (BitVec.ofNat 8 (b.toNat / 10 % 10)).toNat = b.toNat / 10 % 10 := by
  rw [BitVec.toNat_ofNat, Nat.mod_eq_of_lt (by omega)]

theorem bcd_ones_toNat (b : Byte) : (BitVec.ofNat 8 (b.toNat % 10)).toNat = b.toNat % 10 := by
  rw [BitVec.toNat_ofNat, Nat.mod_eq_of_lt (by omega)]

/-- Settles O35: the store of the three digits, in full or up to the first write that faults. -/
theorem bcdStoresThreeDigits : Obligations.BcdStoresThreeDigits := by
  intro x s
  have hlen : (bcdDigits (s.getV x)).length = 3 := rfl
  refine ⟨decodesTo_formX rfl rfl rfl, fun hw => ?_, fun k c hk hw hc => ?_⟩
  · have stored := writeAll_byteAt s s.index.toNat (bcdDigits (s.getV x))
    refine ⟨_, storeBytes_finish_done (k := id) hw, ?_, ?_, ?_, writeAll_bytesKeptBut s _ (bcdDigits (s.getV x)),
      setMem_onlyChanges s _⟩
    · exact (congrArg BitVec.toNat (stored 0 (by rw [hlen]; decide))).trans (bcd_hundreds_toNat _)
    · exact (congrArg BitVec.toNat (stored 1 (by rw [hlen]; decide))).trans (bcd_tens_toNat _)
    · exact (congrArg BitVec.toNat (stored 2 (by rw [hlen]; decide))).trans (bcd_ones_toNat _)
  · have stored {r : Nat} (hr : r < k) := writeAll_take_byteAt (s := s) (a := s.index.toNat) (hlen ▸ hk) hr
    refine ⟨_, storeBytes_finish_raised (k := id) (hlen ▸ hk) hw hc, rfl, fun h => ?_, fun h => ?_,
      writeAll_take_bytesKeptBut (hlen ▸ hk), setMem_recordFault_onlyChanges _ c⟩
    · exact (congrArg BitVec.toNat (stored h)).trans (bcd_hundreds_toNat _)
    · exact (congrArg BitVec.toNat (stored h)).trans (bcd_tens_toNat _)

theorem regBlock_map_length (s : State) (x : Reg) : ((regBlock x).map s.getV).length = x.val + 1 := by
  rw [List.length_map, regBlock_length]

/-- The byte at place `r` of the block is V[r]. -/
theorem regBlock_map_getElem (s : State) {x r : Reg} (h : r.val < ((regBlock x).map s.getV).length) :
    ((regBlock x).map s.getV)[r.val] = s.getV r := by
  have hle : r ≤ x := Nat.le_of_lt_succ (by rwa [regBlock_map_length] at h)
  have hget : ((regBlock x).map s.getV)[r.val]? = some (s.getV r) := by
    rw [List.getElem?_map, regBlock_getElem? x r hle, Option.map_some]
  exact (List.getElem_eq_iff h).2 hget

theorem indexAfterBlock_toNat (s : State) (x : Reg) :
    (s.indexAfterBlock x).toNat = (s.index.toNat + x.val + 1) % 65536 := by
  have := x.isLt
  rw [State.indexAfterBlock, BitVec.toNat_add, BitVec.toNat_ofNat, Nat.mod_eq_of_lt (show x.val + 1 < 2 ^ 16 by omega)]
  rfl

/-- Settles O36: the store of the register block, in full or up to the first write that faults. -/
theorem blockStoreWritesRegistersInOrder : Obligations.BlockStoreWritesRegistersInOrder := by
  intro x s
  have hlen := regBlock_map_length s x
  refine ⟨decodesTo_formX rfl rfl rfl, fun hw => ?_, fun k c hk hw hc => ?_⟩
  · refine ⟨_, storeBytes_finish_done (k := fun u => u.setIndex (u.indexAfterBlock x)) (hlen ▸ hw), fun r hr => ?_,
      indexAfterBlock_toNat s x, ?_, (setMem_onlyChanges s _).append (setIndex_onlyChanges _ _)⟩
    · have hr : r.val < ((regBlock x).map s.getV).length := by rw [hlen]; exact Nat.lt_succ_of_le hr
      exact (writeAll_byteAt s _ _ r.val hr).trans (regBlock_map_getElem s hr)
    · exact hlen ▸ writeAll_bytesKeptBut s s.index.toNat ((regBlock x).map s.getV)
  · have hk : k < ((regBlock x).map s.getV).length := by rw [hlen]; exact Nat.lt_succ_of_le hk
    refine ⟨_, storeBytes_finish_raised (k := fun u => u.setIndex (u.indexAfterBlock x)) hk hw hc, rfl, fun r hr => ?_,
      writeAll_take_bytesKeptBut hk, setMem_recordFault_onlyChanges _ c⟩
    exact (writeAll_take_byteAt hk hr).trans (regBlock_map_getElem s (hr.trans hk))

/-! ### Loads (R155) -/

/-- The first `k` registers of the block come from memory, the others stay. -/
theorem loadedFrom_take_regBlock_getV {x : Reg} {k : Nat} (hk : k ≤ x.val + 1) (a : Nat) (s : State) (r : Reg) :
    (State.loadedFrom ((regBlock x).take k) a s).getV r = if r.val < k then s.byteAt (a + r.val) else s.getV r := by
  split_ifs with hr
  · have hget : ((regBlock x).take k)[r.val]? = some r := by
      rw [List.getElem?_take_of_lt hr, regBlock_getElem? x r (Nat.le_of_lt_succ (hr.trans_le hk))]
    obtain ⟨hlt, e⟩ := List.getElem?_eq_some_iff.1 hget
    have hload := loadedFrom_getV ((regBlock_nodup x).sublist (List.take_sublist k _)) a s r.val hlt
    rwa [e] at hload
  · have hx := x.isLt
    exact loadedFrom_getV_of_not_mem a s fun hm => hr ((mem_take_regBlock x r ⟨k, by omega⟩).1 hm).2

theorem loadedFrom_regBlock_getV (x : Reg) (a : Nat) (s : State) (r : Reg) :
    (State.loadedFrom (regBlock x) a s).getV r = if r ≤ x then s.byteAt (a + r.val) else s.getV r := by
  have h := loadedFrom_take_regBlock_getV (le_refl (x.val + 1)) a s r
  rw [List.take_of_length_le (regBlock_length x).le] at h
  simpa only [Nat.lt_succ_iff, Fin.le_def] using h

theorem exec_ldVxMem_done {x : Reg} {s : State} (h : s.index.toNat + x.val < 4096) :
    exec (.ldVxMem x) s =
      .next ((State.loadedFrom (regBlock x) s.index.toNat s).setIndex (s.indexAfterBlock x)) := by
  rcases exec_ldVxMem_cases x s with ⟨-, e⟩ | ⟨k, hk, -, hb, -⟩
  · exact e
  · omega

/-- The first address outside memory is one address. -/
theorem eq_of_first_outside {a j k : Nat} (hj : ∀ i, i < j → a + i < 4096) (hbj : 4096 ≤ a + j)
    (hk : ∀ i, i < k → a + i < 4096) (hbk : 4096 ≤ a + k) : j = k := by
  rcases Nat.lt_trichotomy j k with hlt | heq | hlt
  · exact absurd (hk j hlt) (Nat.not_lt.2 hbj)
  · exact heq
  · exact absurd (hj k hlt) (Nat.not_lt.2 hbk)

theorem exec_ldVxMem_raised {x : Reg} {s : State} {k : Nat} (hk : k ≤ x.val)
    (hm : ∀ j, j < k → s.index.toNat + j < 4096) (hb : 4096 ≤ s.index.toNat + k) :
    exec (.ldVxMem x) s = .next ((State.loadedFrom ((regBlock x).take k) s.index.toNat s).recordFault
      (.memoryBounds (s.index.toNat + k))) := by
  rcases exec_ldVxMem_cases x s with ⟨hall, -⟩ | ⟨j, hj, hbefore, hbj, e⟩
  · exact absurd (hall k hk) (Nat.not_lt.2 hb)
  · obtain rfl := eq_of_first_outside hbefore hbj hm hb
    exact e

/-- Settles O37: the load of the register block, in full or up to the first read that faults. -/
theorem blockLoadReadsRegistersInOrder : Obligations.BlockLoadReadsRegistersInOrder := by
  intro x s
  refine ⟨decodesTo_formX rfl rfl rfl, fun h => ?_, fun k hk hm hb => ?_⟩
  · exact ⟨_, exec_ldVxMem_done h, loadedFrom_regBlock_getV x _ s, indexAfterBlock_toNat s x,
      (loadedFrom_onlyChanges _ _ s).append (setIndex_onlyChanges _ _)⟩
  · exact ⟨_, exec_ldVxMem_raised hk hm hb, rfl, loadedFrom_take_regBlock_getV (Nat.le_succ_of_le hk) _ s,
      (loadedFrom_onlyChanges _ _ s).append (recordFault_onlyChanges _ _)⟩

/-! ### What was stored is read back (R61, R154, R155) -/

theorem lt_memSize_of_writable {a n j : Nat} (h : Writable a n) (hj : j < n) : a + j < 4096 :=
  (not_writeFaults (h j hj)).1

/-- After a block store that finds room, the bytes of the block are the registers. -/
theorem exec_ldMemVx_byteAt {x : Reg} {s t : State} (hw : Writable s.index.toNat (x.val + 1))
    (ht : exec (.ldMemVx x) s = .next t) {r : Reg} (hr : r ≤ x) : t.byteAt (s.index.toNat + r.val) = s.getV r := by
  obtain ⟨t', ht', hbytes, -⟩ := (blockStoreWritesRegistersInOrder x s).2.1 hw
  obtain rfl := Host.Outcome.next.inj (ht'.symm.trans ht)
  exact hbytes r hr

/-- Settles O38: the load reads the addresses that the store wrote. -/
theorem blockLoadReadsBackBlockStore : Obligations.BlockLoadReadsBackBlockStore := by
  intro x s t u hw ht hindex hmem
  have hin : u.index.toNat + x.val < 4096 := by
    rw [hindex]
    exact lt_memSize_of_writable hw (Nat.lt_succ_self _)
  obtain ⟨v, hv, hregs, -⟩ := (blockLoadReadsRegistersInOrder x u).2.1 hin
  refine ⟨v, hv, fun r hr => ?_⟩
  rw [hregs r, if_pos hr, hmem, hindex, exec_ldMemVx_byteAt hw ht hr]

/-- Settles O39: a fetch reads memory as it stands, and the store has put both bytes of the word there. -/
theorem nextFetchSeesTheStoredWord : Obligations.NextFetchSeesTheStoredWord := by
  intro x a b s t hw ht hb hab hpc
  have ha : a ≤ x := Fin.le_def.2 (by have := Fin.le_def.1 hb; omega)
  have hkept : t.pc = s.pc := exec_writesOnly _ s t ht .pc (by simp [mayChange])
  have hpc' : s.pc.toNat + 1 = s.index.toNat + b.val := by omega
  have hin : t.pc.toNat + 1 < Config.memSize := by
    rw [hkept, hpc']
    exact lt_memSize_of_writable hw (Nat.lt_succ_of_le hb)
  rw [fetch_ok hin, hkept, hpc', hpc, exec_ldMemVx_byteAt hw ht ha, exec_ldMemVx_byteAt hw ht hb]

end Sys2Proof.Machine
end

section
/-! PROOFS. What DXYN draws, cell by cell, where it stops, and what drawing twice does (43_display.md, R161). -/

namespace Sys2Proof.Machine

/-! ### The cells and the collision -/

/-- The display after `k` rows: each cell of the grid is inverted where the sprite has a 1-bit. -/
theorem spriteCanvas_cell (x y : Reg) (s : State) (k : Nat) {cx cy : Nat} (hx : cx < 64) (hy : cy < 32) :
    (spriteCanvas x y s k).disp.cell cx cy = true ↔
      ¬ (s.disp.cell cx cy = true ↔ SpriteBit s ((s.getV x).toNat % 64) ((s.getV y).toNat % 32) k cx cy) := by
  rw [spriteCanvas, paintRows_cell]
  simp only [hx, hy, true_and, Nat.add_zero]
  rfl

/-- A collision needs no bound on the cell: outside the grid nothing is lit. -/
theorem spriteCanvas_hit (x y : Reg) (s : State) (k : Nat) :
    (spriteCanvas x y s k).hit = true ↔ SpriteHits s ((s.getV x).toNat % 64) ((s.getV y).toNat % 32) k := by
  rw [spriteCanvas, paintRows_hit]
  constructor
  · rintro (h | ⟨cx, cy, h₁, h₂, h₃, h₄, hbit, hlit⟩)
    · cases h
    · have hin : cx < 64 ∧ cy < 32 := by
        by_contra hout
        rw [cell_outside _ hout] at hlit
        cases hlit
      exact ⟨cx, cy, hin.1, hin.2, hlit, h₁, h₂, h₃, h₄, hbit⟩
  · rintro ⟨cx, cy, -, -, hlit, h₁, h₂, h₃, h₄, hbit⟩
    exact .inr ⟨cx, cy, h₁, h₂, h₃, h₄, hbit, hlit⟩

/-! ### DRW where every row can be read, and where one cannot -/

theorem exec_drw_done {x y : Reg} {n : Fin 16} {s : State} (h : n.val = 0 ∨ s.index.toNat + n.val ≤ 4096) :
    exec (.drw x y n) s =
      .next ((s.setDisp (spriteCanvas x y s n.val).disp).setV vF (flagByte (spriteCanvas x y s n.val).hit)) := by
  rcases exec_drw_cases x y n s with ⟨-, e⟩ | ⟨k, hk, -, hb, -⟩
  · exact e
  · omega

theorem exec_drw_raised {x y : Reg} {n : Fin 16} {s : State} {k : Nat} (hk : k < n.val)
    (hm : ∀ j, j < k → s.index.toNat + j < 4096) (hb : 4096 ≤ s.index.toNat + k) :
    exec (.drw x y n) s =
      .next ((s.setDisp (spriteCanvas x y s k).disp).recordFault (.memoryBounds (s.index.toNat + k))) := by
  rcases exec_drw_cases x y n s with ⟨hall, -⟩ | ⟨j, hj, hbefore, hbj, e⟩
  · exact absurd (hall k hk) (Nat.not_lt.2 hb)
  · obtain rfl := eq_of_first_outside hbefore hbj hm hb
    exact e

/-- Settles O41: the canvas after all rows gives the cells, and its collision gives VF. -/
theorem drawInvertsExactlyTheSpriteCells : Obligations.DrawInvertsExactlyTheSpriteCells := by
  intro x y n s h
  have hflag : ((s.setDisp (spriteCanvas x y s n.val).disp).setV vF (flagByte (spriteCanvas x y s n.val).hit)).getV 15 =
      flagByte (spriteCanvas x y s n.val).hit := getV_setV_same _ vF _
  refine ⟨_, exec_drw_done h, fun cx cy hx hy => spriteCanvas_cell x y s n.val hx hy, fun hit => ?_, fun miss => ?_,
    setV_regsKeptBut _ vF _, ((setDisp_onlyChanges s _).append (setV_onlyChanges _ vF _)).mono (by decide)⟩
  · rw [hflag, (spriteCanvas_hit x y s n.val).2 hit]
    rfl
  · rw [hflag, Bool.eq_false_iff.2 fun e => miss ((spriteCanvas_hit x y s n.val).1 e)]
    rfl

/-- Settles O42: the canvas after the rows before the first that cannot be read stays. -/
theorem drawFaultKeepsTheRowsBefore : Obligations.DrawFaultKeepsTheRowsBefore := fun x y _ s k hk hm hb =>
  ⟨_, exec_drw_raised hk hm hb, rfl, fun _ _ hx hy => spriteCanvas_cell x y s k hx hy,
    (setDisp_onlyChanges s _).append (recordFault_onlyChanges _ _)⟩

/-! ### Drawing twice -/

/-- A sprite is read from memory at I. -/
theorem spriteBit_congr {s t : State} (hi : t.index = s.index) (hb : ∀ a, t.byteAt a = s.byteAt a)
    (ax ay n cx cy : Nat) : SpriteBit t ax ay n cx cy ↔ SpriteBit s ax ay n cx cy := by
  unfold SpriteBit
  rw [hi, hb]

/-- Settles O43: each cell is inverted twice under the same sprite, and the second draw finds a lit cell under a 1-bit
where the first found an unlit one. -/
theorem drawingTwiceRestoresTheDisplay : Obligations.DrawingTwiceRestoresTheDisplay := by
  intro x y x' y' n s t h ht hx' hy'
  obtain ⟨t', ht', htcell, -, -, -, hframe⟩ := drawInvertsExactlyTheSpriteCells x y n s h
  obtain rfl := Host.Outcome.next.inj (ht'.symm.trans ht)
  have hindex : t'.index = s.index := hframe .index (by decide)
  have hbit := spriteBit_congr hindex (hframe .mem (by decide))
  obtain ⟨u, hu, hucell, hhit, hmiss, -, -⟩ := drawInvertsExactlyTheSpriteCells x' y' n t' (by rwa [hindex])
  rw [hx', hy'] at hhit hmiss
  simp only [hx', hy', hbit] at hucell
  refine ⟨u, hu, display_ext fun cx cy hcx hcy => ?_, ?_⟩
  · rw [Bool.eq_iff_iff, hucell cx cy hcx hcy, htcell cx cy hcx hcy]
    tauto
  · have hflag : u.getV 15 = 1 ↔ SpriteHits t' ((s.getV x).toNat % 64) ((s.getV y).toNat % 32) n.val :=
      ⟨fun e => by_contra fun no => absurd (e.symm.trans (hmiss no)) (by decide), hhit⟩
    rw [hflag, SpriteHits]
    refine exists₂_congr fun cx cy => and_congr_right fun hcx => and_congr_right fun hcy => ?_
    rw [htcell cx cy hcx hcy, hbit, ← Bool.not_eq_true]
    tauto

end Sys2Proof.Machine
end
